-- ==== Sys2Proof/Word.lean ====
section
/-! DEFINITION. The word types of CHIP8-CORE (spec/00_scope.md R6, R8, R9): all values are unsigned bit vectors,
bit 0 the least significant; no rule of the spec is signed. -/

namespace Sys2Proof

/-- A memory cell, a general register, a timer, an immediate `kk` (R6: 8 bits). -/
abbrev Byte := BitVec 8

/-- An instruction, `I`, `pc`, a stack entry, the info of a fault (R6: 16 bits). -/
abbrev Word := BitVec 16

/-- A register index: the 4-bit fields `x` and `y` (spec/30_encoding.md R91). -/
abbrev Reg := BitVec 4

/-- The 12-bit field `nnn` (spec/30_encoding.md R91). -/
abbrev Addr := BitVec 12

/-- The 4-bit row count `n` of Dxyn (spec/30_encoding.md R93 (d)). -/
abbrev Rows := BitVec 4

/-- A key code, 0 to 15 (spec/10_state.md R35). -/
abbrev Key := BitVec 4

end Sys2Proof
end

