-- ==== Sys2Proof/Decode.lean ====
section
/-! DEFINITION. Decoding (spec/30_encoding.md R90, R91, R94 to R97), total on every word and every list of bytes,
rejecting by name; after it the encoder (R102) and the host's `decodeTableWord`. -/

namespace Sys2Proof

/-- Why bytes are no instruction. -/
inductive Reject where
  /-- The word matches no row of the opcode map (R96). -/
  | unknownInstruction (instr : Word)
  /-- Fewer than the two bytes of an instruction (R90). -/
  | truncated
  deriving DecidableEq, Repr

/-- `op`: bits 15 to 12 (R91). -/
def fieldOp (w : Word) : BitVec 4 := w.extractLsb' 12 4

/-- `x`: bits 11 to 8 (R91). -/
def fieldX (w : Word) : Reg := w.extractLsb' 8 4

/-- `y`: bits 7 to 4 (R91). -/
def fieldY (w : Word) : Reg := w.extractLsb' 4 4

/-- `n`: bits 3 to 0 (R91). -/
def fieldN (w : Word) : BitVec 4 := w.extractLsb' 0 4

/-- `kk`: bits 7 to 0 (R91). -/
def fieldKk (w : Word) : Byte := w.extractLsb' 0 8

/-- `nnn`: bits 11 to 0 (R91). -/
def fieldNnn (w : Word) : Addr := w.extractLsb' 0 12

/-- Group 0 is matched on the full instruction (R94). -/
def decodeGroup0 (w : Word) : Except Reject Instr :=
  if w = 0x00E0 then .ok .cls
  else if w = 0x00EE then .ok .ret
  else .error (.unknownInstruction w)

/-- Group 5: only `n = 0` is legal (R97). -/
def decodeGroup5 (w : Word) : Except Reject Instr :=
  if fieldN w = 0 then .ok (.seReg (fieldX w) (fieldY w))
  else .error (.unknownInstruction w)

/-- Group 8: secondary dispatch on `n` (R94). -/
def decodeGroup8 (w : Word) : Except Reject Instr :=
  match (fieldN w).toNat with
  | 0x0 => .ok (.ldReg (fieldX w) (fieldY w))
  | 0x1 => .ok (.orReg (fieldX w) (fieldY w))
  | 0x2 => .ok (.andReg (fieldX w) (fieldY w))
  | 0x3 => .ok (.xorReg (fieldX w) (fieldY w))
  | 0x4 => .ok (.addReg (fieldX w) (fieldY w))
  | 0x5 => .ok (.subReg (fieldX w) (fieldY w))
  | 0x6 => .ok (.shr (fieldX w) (fieldY w))
  | 0x7 => .ok (.subnReg (fieldX w) (fieldY w))
  | 0xE => .ok (.shl (fieldX w) (fieldY w))
  | _ => .error (.unknownInstruction w)

/-- Group 9: only `n = 0` is legal (R97). -/
def decodeGroup9 (w : Word) : Except Reject Instr :=
  if fieldN w = 0 then .ok (.sneReg (fieldX w) (fieldY w))
  else .error (.unknownInstruction w)

/-- Group E: secondary dispatch on `kk` (R94). -/
def decodeGroupE (w : Word) : Except Reject Instr :=
  if fieldKk w = 0x9E then .ok (.skp (fieldX w))
  else if fieldKk w = 0xA1 then .ok (.sknp (fieldX w))
  else .error (.unknownInstruction w)

/-- Group F: secondary dispatch on `kk` (R94, R95). -/
def decodeGroupF (w : Word) : Except Reject Instr :=
  if fieldKk w = 0x07 then .ok (.ldVxDT (fieldX w))
  else if fieldKk w = 0x0A then .ok (.ldVxK (fieldX w))
  else if fieldKk w = 0x15 then .ok (.ldDTVx (fieldX w))
  else if fieldKk w = 0x18 then .ok (.ldSTVx (fieldX w))
  else if fieldKk w = 0x1E then .ok (.addI (fieldX w))
  else if fieldKk w = 0x29 then .ok (.ldF (fieldX w))
  else if fieldKk w = 0x33 then .ok (.ldB (fieldX w))
  else if fieldKk w = 0x55 then .ok (.storeRegs (fieldX w))
  else if fieldKk w = 0x65 then .ok (.loadRegs (fieldX w))
  else .error (.unknownInstruction w)

/-- The dispatch of R94: a pure function of the 16 bits, total on all 65536 words. -/
def decode (w : Word) : Except Reject Instr :=
  match (fieldOp w).toNat with
  | 0x0 => decodeGroup0 w
  | 0x1 => .ok (.jp (fieldNnn w))
  | 0x2 => .ok (.call (fieldNnn w))
  | 0x3 => .ok (.seImm (fieldX w) (fieldKk w))
  | 0x4 => .ok (.sneImm (fieldX w) (fieldKk w))
  | 0x5 => decodeGroup5 w
  | 0x6 => .ok (.ldImm (fieldX w) (fieldKk w))
  | 0x7 => .ok (.addImm (fieldX w) (fieldKk w))
  | 0x8 => decodeGroup8 w
  | 0x9 => decodeGroup9 w
  | 0xA => .ok (.ldI (fieldNnn w))
  | 0xB => .ok (.jpV0 (fieldNnn w))
  | 0xC => .ok (.rnd (fieldX w) (fieldKk w))
  | 0xD => .ok (.drw (fieldX w) (fieldY w) (fieldN w))
  | 0xE => decodeGroupE w
  | _ => decodeGroupF w

/-- The word of two bytes, high byte first (spec/20_memory.md R65). -/
def wordOfBytes (hi lo : Byte) : Word := hi ++ lo

/-- The byte at the lower address: bits 15 to 8 (spec/20_memory.md R65). -/
def highByte (w : Word) : Byte := w.extractLsb' 8 8

/-- The byte at the next address: bits 7 to 0 (spec/20_memory.md R65). -/
def lowByte (w : Word) : Byte := w.extractLsb' 0 8

/-- Decoding of any bytes: the first instruction and the bytes after it (R90: always two bytes). -/
def decodeBytes : List Byte → Except Reject (Instr × List Byte)
  | hi :: lo :: rest =>
    match decode (wordOfBytes hi lo) with
    | .ok i => .ok (i, rest)
    | .error r => .error r
  | _ => .error .truncated

/-! ### The encoder (R102) -/

/-- Format A: `op nnn` (R92). -/
def formatA (op : BitVec 4) (nnn : Addr) : Word := op ++ nnn

/-- Format XK: `op x kk` (R92). -/
def formatXK (op : BitVec 4) (x : Reg) (kk : Byte) : Word := (op ++ x : BitVec 8) ++ kk

/-- Formats XY and XYN: `op x y n` (R92). -/
def formatXYN (op : BitVec 4) (x y : Reg) (n : BitVec 4) : Word := (op ++ x : BitVec 8) ++ (y ++ n : BitVec 8)

/-- The word of an instruction (R95, R102). -/
def encode : Instr → Word
  | .cls => 0x00E0
  | .ret => 0x00EE
  | .jp nnn => formatA 0x1 nnn
  | .call nnn => formatA 0x2 nnn
  | .seImm x kk => formatXK 0x3 x kk
  | .sneImm x kk => formatXK 0x4 x kk
  | .seReg x y => formatXYN 0x5 x y 0x0
  | .ldImm x kk => formatXK 0x6 x kk
  | .addImm x kk => formatXK 0x7 x kk
  | .ldReg x y => formatXYN 0x8 x y 0x0
  | .orReg x y => formatXYN 0x8 x y 0x1
  | .andReg x y => formatXYN 0x8 x y 0x2
  | .xorReg x y => formatXYN 0x8 x y 0x3
  | .addReg x y => formatXYN 0x8 x y 0x4
  | .subReg x y => formatXYN 0x8 x y 0x5
  | .shr x y => formatXYN 0x8 x y 0x6
  | .subnReg x y => formatXYN 0x8 x y 0x7
  | .shl x y => formatXYN 0x8 x y 0xE
  | .sneReg x y => formatXYN 0x9 x y 0x0
  | .ldI nnn => formatA 0xA nnn
  | .jpV0 nnn => formatA 0xB nnn
  | .rnd x kk => formatXK 0xC x kk
  | .drw x y n => formatXYN 0xD x y n
  | .skp x => formatXK 0xE x 0x9E
  | .sknp x => formatXK 0xE x 0xA1
  | .ldVxDT x => formatXK 0xF x 0x07
  | .ldVxK x => formatXK 0xF x 0x0A
  | .ldDTVx x => formatXK 0xF x 0x15
  | .ldSTVx x => formatXK 0xF x 0x18
  | .addI x => formatXK 0xF x 0x1E
  | .ldF x => formatXK 0xF x 0x29
  | .ldB x => formatXK 0xF x 0x33
  | .storeRegs x => formatXK 0xF x 0x55
  | .loadRegs x => formatXK 0xF x 0x65

/-- The two bytes of an instruction in memory, the lower address first (R102). -/
def encodeBytes (i : Instr) : List Byte := [highByte (encode i), lowByte (encode i)]

/-- The 16-bit word of the table's numbering: bits above `nbits` are 0. -/
def tableWord (nbits w : Nat) : Word := BitVec.ofNat 16 (w % 2 ^ nbits)

/-- What the decoder reads from an instruction whose bits are `w`, laid out as the hardware stores it (R65: the high
byte at the lower address). -/
def decodeTableWord (nbits w : Nat) : Option Instr :=
  match decodeBytes [highByte (tableWord nbits w), lowByte (tableWord nbits w)] with
  | .ok (i, _) => some i
  | .error _ => none

end Sys2Proof
end

