-- ==== Sys2Proof/Config.lean ====
section
/-! DEFINITION. The fixed sizes of the machine (spec/00_scope.md R6) and its FREE VALUES: constants without a body,
of which nothing can be evaluated or proved (log entries 1, 5, 17). -/

namespace Sys2Proof

/-- MEM_SIZE: addresses 0x000 to 0xFFF (R6). -/
abbrev Config.memSize : Nat := 0x1000

/-- ROM_BASE (R6). -/
abbrev Config.romBase : Nat := 0x200

/-- ROM_MAX, the longest loadable ROM (R6): MEM_SIZE - ROM_BASE. -/
abbrev Config.romMax : Nat := 3584

/-- RESET_PC (R6). -/
abbrev Config.resetPc : Word := 0x200

/-- STACK_DEPTH (R6). -/
abbrev Config.stackDepth : Nat := 16

/-- DISPLAY_W (R6). -/
abbrev Config.displayW : Nat := 64

/-- DISPLAY_H (R6). -/
abbrev Config.displayH : Nat := 32

/-- GLYPH_SIZE (R6). -/
abbrev Config.glyphSize : Nat := 5

/-- FREE VALUE (log entry 1): the key latch the host presents for the step numbered `n`.
spec/10_state.md R35: "free at every step". DESIGN CHOICE: the form, a numbered choice of the host. Safe. -/
opaque Config.hostKey : Nat → Option Key

/-- FREE VALUE (log entry 1): the random byte the host presents for the step numbered `n`.
spec/10_state.md R36: "free at every step, under no law". DESIGN CHOICE: the form. Safe. -/
opaque Config.hostRnd : Nat → Byte

/-- FREE VALUE (log entry 5): what a piece of state that held `was` holds after the faulting step `n`.
spec/60_exceptions.md R265: "every other piece of state is unspecified after a fault". DESIGN CHOICE: the form. Safe. -/
opaque Config.afterFault {α : Type} [Inhabited α] (n : Nat) (was : α) : α

/-- The OPEN parameter TICK_HZ of spec/92_eei_decisions.md D26: a property of the host that no rule reads
(spec/46_host_operations.md R250; log entry 17). Safe. -/
opaque Config.tickHz : Nat

end Sys2Proof
end

