-- ==== Sys2Proof/Machine/State.lean ====
section
/-! DEFINITION. The state of the machine (spec/10_state.md R20 to R36), its faults (spec/60_exceptions.md R260 to R263)
and the state right after reset (spec/10_state.md R38). -/

namespace Sys2Proof.Machine

/-- The error kinds of spec/60_exceptions.md R260, each with its 16-bit info (R266). -/
inductive Fault where
  /-- Raised by the decode item of a Running step for a word that matches no row of the opcode map (R261); `instr` is
  the word. Safe: the spec's own fault. -/
  | unknownInstruction (instr : Word)
  /-- Reserved; raised by nothing (R262, log entry 18). Safe. -/
  | unimplementedInstruction (instr : Word)
  /-- Raised by an access above 0xFFF (fetch, Dxyn, Fx33, Fx55, Fx65), a call with a full stack, a return with an empty
  one, and a ROM that does not fit (R263); `index` is the offending index. Safe. -/
  | boundsError (index : Word)
  deriving DecidableEq, Repr

/-- Reasons for which the model gives no meaning. The spec's machine has no refused instruction (spec/60_exceptions.md
R276), and this model refuses none. -/
inductive Refusal where
  /-- An arm of `exec` whose instruction has no meaning yet. Safe. No arm uses it. -/
  | notModelled (mnemonic : String)
  deriving DecidableEq, Repr

/-- The execution state of spec/10_state.md R30. -/
inductive ExecState where
  | running
  | waitingForKey (r : Reg)
  deriving DecidableEq, Repr, Inhabited

/-- The framebuffer of spec/10_state.md R33: 32 rows of 64 pixels, `fb[y][x]`, true = set. -/
abbrev Framebuffer := Vector (Vector Bool 64) 32

/-- The machine. The first twelve fields are the state of spec/10_state.md R20, "exactly this list"; the last three are
the model's own: the host's inputs for the coming step (R35, R36; log entry 1). -/
structure State where
  /-- V0 to VF (R21) -/
  V : Vector Byte 16
  /-- the index register (R24) -/
  I : Word
  /-- the program counter (R25) -/
  pc : Word
  /-- the return addresses (R26) -/
  stack : Vector Word 16
  /-- the stack pointer, legal values 0 to 16 (R27) -/
  sp : Byte
  /-- the delay timer (R28) -/
  DT : Byte
  /-- the sound timer (R29) -/
  ST : Byte
  /-- `exec`, Running or WaitingForKey(r) (R30) -/
  execState : ExecState
  /-- the display-dirty flag (R31) -/
  dirty : Bool
  /-- memory, in the canonical form of `Memory.wf` (R32) -/
  mem : List Host.Cell
  /-- the display (R33) -/
  fb : Framebuffer
  /-- the fault latch (R34) -/
  fault : Option Fault
  /-- input: the key latch the coming step samples (R35) -/
  key : Option Key
  /-- input: the random byte the coming step samples (R36) -/
  rnd : Byte
  /-- the model's own: how many steps the host has presented inputs for (log entry 1) -/
  hostTick : Nat
  deriving DecidableEq, Repr, Inhabited

/-- The framebuffer with every pixel clear (spec/10_state.md R38, spec/44_display.md R201). -/
def blankFb : Framebuffer := Vector.replicate 32 (Vector.replicate 64 false)

/-- The state after reset (spec/10_state.md R38). `mem` lists nothing: an unlisted address reads as its reset contents,
the font and zeros (log entries 2, 6, 24). The inputs are the host's first choices, free (log entry 1). -/
def State.reset : State where
  V := Vector.replicate 16 0
  I := 0
  pc := Config.resetPc
  stack := Vector.replicate 16 0
  sp := 0
  DT := 0
  ST := 0
  execState := .running
  dirty := false
  mem := []
  fb := blankFb
  fault := none
  key := Config.hostKey 0
  rnd := Config.hostRnd 0
  hostTick := 0

end Sys2Proof.Machine
end

