-- ==== Sys2Proof/Machine/Ops.lean ====
section
/-! DEFINITION. The named operations over memory, registers, stack, timers and pc, and raising an error
(spec/20_memory.md, spec/10_state.md, spec/40_step_cycle.md, spec/60_exceptions.md R264). -/

namespace Sys2Proof.Machine

/-! ### Reset contents of memory -/

/-- The glyphs 0 to 7 of the font (spec/20_memory.md R77; the bytes are from general knowledge, G1, log entry 6). -/
def fontLow : List Byte :=
  [0xF0, 0x90, 0x90, 0x90, 0xF0] ++ [0x20, 0x60, 0x20, 0x20, 0x70] ++
  [0xF0, 0x10, 0xF0, 0x80, 0xF0] ++ [0xF0, 0x10, 0xF0, 0x10, 0xF0] ++
  [0x90, 0x90, 0xF0, 0x10, 0x10] ++ [0xF0, 0x80, 0xF0, 0x10, 0xF0] ++
  [0xF0, 0x80, 0xF0, 0x90, 0xF0] ++ [0xF0, 0x10, 0x20, 0x40, 0x40]

/-- The glyphs 8 to F of the font (spec/20_memory.md R77). -/
def fontHigh : List Byte :=
  [0xF0, 0x90, 0xF0, 0x90, 0xF0] ++ [0xF0, 0x90, 0xF0, 0x10, 0xF0] ++
  [0xF0, 0x90, 0xF0, 0x90, 0x90] ++ [0xE0, 0x90, 0xE0, 0x90, 0xE0] ++
  [0xF0, 0x80, 0x80, 0x80, 0xF0] ++ [0xE0, 0x90, 0x90, 0x90, 0xE0] ++
  [0xF0, 0x80, 0xF0, 0x80, 0xF0] ++ [0xF0, 0x80, 0xF0, 0x80, 0x80]

/-- What an address that memory does not list reads as: its reset contents, the font at 0x000 to 0x04F and 0x00
elsewhere (spec/10_state.md R38, spec/20_memory.md R61; log entry 24). -/
def resetByte (a : Nat) : Byte := (fontLow ++ fontHigh).getD a 0

/-! ### Memory as a canonical list of cells -/

/-- The byte at an address: the listed one, else the reset contents. -/
def Memory.get : List Host.Cell → Nat → Byte
  | [], a => resetByte a
  | (b, v) :: m, a => if b = a then v else Memory.get m a

/-- The list without any entry for `a`. -/
def Memory.erase : List Host.Cell → Nat → List Host.Cell
  | [], _ => []
  | (b, v) :: m, a => if b = a then Memory.erase m a else (b, v) :: Memory.erase m a

/-- The entry `(a, v)` put before the first larger address. -/
def Memory.insert : List Host.Cell → Nat → Byte → List Host.Cell
  | [], a, v => [(a, v)]
  | (b, w) :: m, a, v => if a < b then (a, v) :: (b, w) :: m else (b, w) :: Memory.insert m a v

/-- Memory with the byte `v` at `a`; writing the reset contents removes the entry, so that equal memories are equal
lists. -/
def Memory.set (m : List Host.Cell) (a : Nat) (v : Byte) : List Host.Cell :=
  if v = resetByte a then Memory.erase m a else Memory.insert (Memory.erase m a) a v

/-- The canonical form from address `lo` on: addresses strictly rising and inside the address space, no entry equal to
the reset contents. -/
def Memory.wfFrom : Nat → List Host.Cell → Bool
  | _, [] => true
  | lo, (a, v) :: m =>
    decide (lo ≤ a) && decide (a < Config.memSize) && decide (v ≠ resetByte a) && Memory.wfFrom (a + 1) m

/-- The canonical form of memory. -/
def Memory.wf (m : List Host.Cell) : Bool := Memory.wfFrom 0 m

/-! ### The access primitives -/

/-- `BoundsError(addr)` (spec/60_exceptions.md R263); every address that can be reported fits in 16 bits
(spec/20_memory.md R64). -/
def boundsAt (addr : Nat) : Fault := .boundsError (BitVec.ofNat 16 addr)

/-- `MemRead(addr, 1)` (spec/20_memory.md R62, log entry 3). -/
def memRead (m : List Host.Cell) (addr : Nat) : Except Fault Byte :=
  if addr < Config.memSize then .ok (Memory.get m addr) else .error (boundsAt addr)

/-- `MemWrite(addr, 1, v)` (spec/20_memory.md R63). -/
def memWrite (m : List Host.Cell) (addr : Nat) (v : Byte) : Except Fault (List Host.Cell) :=
  if addr < Config.memSize then .ok (Memory.set m addr v) else .error (boundsAt addr)

/-- The bytes `bs` written at `addr`, `addr + 1`, ... in ascending order, ended by the first address out of range
(spec/20_memory.md R64). -/
def memWriteBytes (m : List Host.Cell) (addr : Nat) : List Byte → Except Fault (List Host.Cell)
  | [] => .ok m
  | b :: bs =>
    match memWrite m addr b with
    | .error f => .error f
    | .ok m' => memWriteBytes m' (addr + 1) bs

/-- `MemRead(addr, 2)`: high byte first (spec/20_memory.md R65). -/
def memReadWord (m : List Host.Cell) (addr : Nat) : Except Fault Word :=
  match memRead m addr with
  | .error f => .error f
  | .ok hi =>
    match memRead m (addr + 1) with
    | .error f => .error f
    | .ok lo => .ok (wordOfBytes hi lo)

/-! ### Registers -/

/-- `V[r]` (spec/10_state.md R21). -/
def getV (s : State) (r : Reg) : Byte := s.V[r.toNat]'r.isLt

/-- `V[r] <- v` (spec/10_state.md R23); a 4-bit index is always in range. -/
def setV (s : State) (r : Reg) (v : Byte) : State := { s with V := s.V.set r.toNat v r.isLt }

/-- Register number `k` of a loop over registers (spec/43_index_memory.md R184, R185). -/
def regOfNat (k : Nat) : Reg := BitVec.ofNat 4 k

/-- `count` registers from register `k` on, loaded from `addr` on in ascending order (spec/43_index_memory.md R185). -/
def loadRegsFrom (s : State) (addr k : Nat) : Nat → Except Fault State
  | 0 => .ok s
  | count + 1 =>
    match memRead s.mem addr with
    | .error f => .error f
    | .ok b => loadRegsFrom (setV s (regOfNat k) b) (addr + 1) (k + 1) count

/-! ### The other pieces of state -/

/-- The state with another memory. -/
def setMem (s : State) (m : List Host.Cell) : State := { s with mem := m }

/-- `I <- w` (spec/10_state.md R24). -/
def setI (s : State) (w : Word) : State := { s with I := w }

/-- `DT <- v` (spec/10_state.md R28). -/
def setDT (s : State) (v : Byte) : State := { s with DT := v }

/-- `ST <- v` (spec/10_state.md R29). -/
def setST (s : State) (v : Byte) : State := { s with ST := v }

/-- `exec <- e` (spec/10_state.md R30). -/
def setExecState (s : State) (e : ExecState) : State := { s with execState := e }

/-! ### Raising an error -/

/-- Raising an error (spec/60_exceptions.md R264, R265): the step ends with the fault outcome, which carries kind and
info and no state. There is no handler and no return (R267). -/
def raise (f : Fault) : Host.Outcome State Fault Refusal := .fault f

/-- The fault latch set, as the host sees it (spec/60_exceptions.md R264). -/
def latchFault (f : Fault) (s : State) : State := { s with fault := some f }

/-- The next state of an outcome passed on, a fault or a refusal kept. -/
def onNext (o : Host.Outcome State Fault Refusal) (f : State → State) : Host.Outcome State Fault Refusal :=
  match o with
  | .next s => .next (f s)
  | .fault r => .fault r
  | .refused r => .refused r

/-- An operation that answers a state or raises, as an outcome. -/
def orRaise (e : Except Fault State) : Host.Outcome State Fault Refusal :=
  match e with
  | .ok s => .next s
  | .error f => raise f

/-! ### The stack -/

/-- The call's push: the entry at `sp` written, then `sp` advanced; `BoundsError(sp)` when `sp >= 16`
(spec/41_control_flow.md R141). -/
def pushWord (s : State) (w : Word) : Except Fault State :=
  if h : s.sp.toNat < Config.stackDepth then
    .ok { s with stack := s.stack.set s.sp.toNat w h, sp := s.sp + 1 }
  else .error (boundsAt s.sp.toNat)

/-- The return's pop: `BoundsError(255)` when `sp = 0`; else `sp` decremented and `pc` restored from the entry there
(spec/41_control_flow.md R142). An `sp` above 16, which no run reaches, names no entry: `BoundsError(sp - 1)`
(DESIGN CHOICE, log entry 4, safe). -/
def popToPc (s : State) : Except Fault State :=
  if s.sp = 0 then .error (boundsAt 255)
  else if h : s.sp.toNat - 1 < Config.stackDepth then
    .ok { s with sp := s.sp - 1, pc := s.stack[s.sp.toNat - 1]'h }
  else .error (boundsAt (s.sp.toNat - 1))

/-! ### The program counter, the timers, the dirty flag -/

/-- `pc <- (pc + 2) mod 65536` (spec/40_step_cycle.md R125, log entry 15). -/
def addTwo (s : State) : State := { s with pc := s.pc + 2 }

/-- `skip` when the condition holds (spec/40_step_cycle.md R126). -/
def skipIf (c : Bool) (s : State) : State := if c then addTwo s else s

/-- `pc <- target` of a control transfer (spec/40_step_cycle.md R125). -/
def jumpTo (target : Word) (s : State) : State := { s with pc := target }

/-- `pc_set`, the transient of spec/10_state.md R37: the instructions that set it are exactly 1nnn, 2nnn and Bnnn
(spec/40_step_cycle.md R125), so it is a function of the instruction (log entry 23). -/
def setsPc : Instr → Bool
  | .jp _ | .call _ | .jpV0 _ => true
  | .cls | .ret | .seImm _ _ | .sneImm _ _ | .seReg _ _ | .ldImm _ _ | .addImm _ _ | .ldReg _ _ | .orReg _ _
  | .andReg _ _ | .xorReg _ _ | .addReg _ _ | .subReg _ _ | .shr _ _ | .subnReg _ _ | .shl _ _ | .sneReg _ _
  | .ldI _ | .rnd _ _ | .drw _ _ _ | .skp _ | .sknp _ | .ldVxDT _ | .ldVxK _ | .ldDTVx _ | .ldSTVx _ | .addI _
  | .ldF _ | .ldB _ | .storeRegs _ | .loadRegs _ => false

/-- One timer's tick: down by one, not below zero (spec/40_step_cycle.md R124). -/
def countDown (t : Byte) : Byte := if t = 0 then 0 else t - 1

/-- The timer tick (spec/40_step_cycle.md R124). -/
def tickTimers (s : State) : State := { s with DT := countDown s.DT, ST := countDown s.ST }

/-- Item 6 of the step (spec/40_step_cycle.md R122, R125). -/
def advancePc (i : Instr) (s : State) : State := if setsPc i then s else addTwo s

/-- What a Running step does after the instruction: tick, then advance (spec/40_step_cycle.md R122 items 5, 6). -/
def finishStep (i : Instr) (s : State) : State := advancePc i (tickTimers s)

/-- Item 1 of the step (spec/40_step_cycle.md R122). -/
def clearDirty (s : State) : State := { s with dirty := false }

/-- `dirty <- 1` (spec/10_state.md R31). -/
def raiseDirty (s : State) : State := { s with dirty := true }

end Sys2Proof.Machine
end

