-- ==== Sys2Proof/Machine/Operands.lean ====
section
/-! DEFINITION. The operand forms (spec/30_encoding.md R93, spec/43_index_memory.md R186): zero-extension, the address
`I + k`, the register range V0..Vx, the glyph address, the decimal digits, the key test. -/

namespace Sys2Proof.Machine

/-- `zext_16(nnn)` (spec/30_encoding.md R93 (c)). -/
def addrOperand (nnn : Addr) : Word := nnn.setWidth 16

/-- `zext_16(V[x])`. -/
def byteOperand (v : Byte) : Word := v.setWidth 16

/-- `zext_8(k)` of a key code (spec/40_step_cycle.md R128). -/
def keyByte (k : Key) : Byte := k.setWidth 8

/-- The base address of a data access, a natural number (spec/20_memory.md R64). -/
def indexAddr (s : State) : Nat := s.I.toNat

/-- `5 * zext_16(V[x])`, the glyph's base address; the whole byte is multiplied (spec/43_index_memory.md R182). -/
def glyphAddr (v : Byte) : Word := BitVec.ofNat 16 (Config.glyphSize * v.toNat)

/-- The hundreds, tens and ones of a byte, in the order they are stored (spec/43_index_memory.md R183). -/
def decimalDigits (v : Byte) : List Byte :=
  [BitVec.ofNat 8 (v.toNat / 100), BitVec.ofNat 8 (v.toNat / 10 % 10), BitVec.ofNat 8 (v.toNat % 10)]

/-- V0 to V[x] inclusive, in order (spec/43_index_memory.md R184). -/
def regsUpTo (s : State) (x : Reg) : List Byte :=
  (List.range (x.toNat + 1)).map fun k => getV s (regOfNat k)

/-- `key == Some(k) and zext_8(k) == V[x]` (spec/45_keys_timers.md R220, log entry 8). -/
def keyMatches (s : State) (x : Reg) : Bool :=
  match s.key with
  | none => false
  | some k => keyByte k == getV s x

end Sys2Proof.Machine
end

