-- ==== Sys2Proof/Machine/ControlFlow.lean ====
section
/-! DEFINITION. Control transfer (spec/41_control_flow.md R140 to R148). Each meaning is the "execute" of item 5 of the
step; `pc` is the address of the instruction. -/

namespace Sys2Proof.Machine

/-- 1nnn (R140). -/
def execJp (nnn : Addr) (s : State) : Host.Outcome State Fault Refusal :=
  .next (jumpTo (addrOperand nnn) s)

/-- 2nnn (R141): the pushed value is the address of the call itself. -/
def execCall (nnn : Addr) (s : State) : Host.Outcome State Fault Refusal :=
  onNext (orRaise (pushWord s s.pc)) (jumpTo (addrOperand nnn))

/-- 00EE (R142): `pc_set` stays 0, so the step still adds 2. -/
def execRet (s : State) : Host.Outcome State Fault Refusal :=
  orRaise (popToPc s)

/-- Bnnn (R143): the offset register is always V0. -/
def execJpV0 (nnn : Addr) (s : State) : Host.Outcome State Fault Refusal :=
  .next (jumpTo (addrOperand nnn + byteOperand (getV s 0)) s)

/-- 3xkk (R144). -/
def execSeImm (x : Reg) (kk : Byte) (s : State) : Host.Outcome State Fault Refusal :=
  .next (skipIf (getV s x == kk) s)

/-- 4xkk (R145). -/
def execSneImm (x : Reg) (kk : Byte) (s : State) : Host.Outcome State Fault Refusal :=
  .next (skipIf (getV s x != kk) s)

/-- 5xy0 (R146). -/
def execSeReg (x y : Reg) (s : State) : Host.Outcome State Fault Refusal :=
  .next (skipIf (getV s x == getV s y) s)

/-- 9xy0 (R147). -/
def execSneReg (x y : Reg) (s : State) : Host.Outcome State Fault Refusal :=
  .next (skipIf (getV s x != getV s y) s)

end Sys2Proof.Machine
end

