-- ==== Sys2Proof/Machine/Flags.lean ====
section
/-! DEFINITION. The flag computations (spec/10_state.md R22, spec/42_load_alu.md R172): VF is the machine's only flag,
and a flag value is the byte 0x00 or 0x01. -/

namespace Sys2Proof.Machine

/-- Register 15 (spec/10_state.md R22). -/
abbrev VF : Reg := 15#4

/-- A flag value as a byte (spec/42_load_alu.md R172). -/
def flagByte (b : Bool) : Byte := if b then 1 else 0

/-- The carry of an addition, from the exact sum (spec/42_load_alu.md R166). -/
def carryOut (a b : Byte) : Bool := decide (a.toNat + b.toNat > 255)

/-- No borrow of `a - b`: strictly greater (spec/42_load_alu.md R167, R172). -/
def noBorrow (a b : Byte) : Bool := decide (a.toNat > b.toNat)

/-- The bit a right shift shifts out: bit 0 (spec/42_load_alu.md R168). -/
def shiftedOutRight (v : Byte) : Bool := v.getLsbD 0

/-- The bit a left shift shifts out: bit 7 (spec/42_load_alu.md R170). -/
def shiftedOutLeft (v : Byte) : Bool := v.getLsbD 7

/-- `VF <- flag`. -/
def setFlag (s : State) (b : Bool) : State := setV s VF (flagByte b)

end Sys2Proof.Machine
end

