-- ==== Sys2Proof/Machine/Framebuffer.lean ====
section
/-! DEFINITION. The display primitives (spec/44_display.md R200, R201, R204). -/

namespace Sys2Proof.Machine

/-- `fb[row][col]`, both coordinates reduced as R200 reduces them. -/
def pixelAt (fb : Framebuffer) (col row : Nat) : Bool :=
  (fb[row % 32]'(Nat.mod_lt _ (by decide)))[col % 64]'(Nat.mod_lt _ (by decide))

/-- `fb[row][col] <- b`, both coordinates reduced as R200 reduces them. -/
def setPixel (fb : Framebuffer) (col row : Nat) (b : Bool) : Framebuffer :=
  fb.set (row % 32)
    ((fb[row % 32]'(Nat.mod_lt _ (by decide))).set (col % 64) b (Nat.mod_lt _ (by decide)))
    (Nat.mod_lt _ (by decide))

/-- Bit `7 - i` of a sprite byte: `i = 0` is the most significant, leftmost one (R200). -/
def spriteBit (byte : Byte) (i : Nat) : Bool := byte.getLsbD (7 - i)

/-- One pass of R200's loop: the pixel at column `x + i` XORed with the sprite's bit, and the collision so far. -/
def drawBit (x y : Nat) (byte : Byte) (p : Framebuffer × Bool) (i : Nat) : Framebuffer × Bool :=
  let bit := spriteBit byte i
  let old := pixelAt p.1 (x + i) y
  (setPixel p.1 (x + i) y (old ^^ bit), p.2 || (bit && old))

/-- `drawByte(x, y, byte)` (R200): the framebuffer after it and its collision bit. -/
def drawByte (fb : Framebuffer) (x y : Nat) (byte : Byte) : Framebuffer × Bool :=
  (List.range 8).foldl (drawBit x y byte) (fb, false)

/-- The row loop of Dxyn (spec/44_display.md R203): `n` rows from memory at `addr` on, drawn from row `y` on, in
ascending order; the first address out of range ends it. -/
def drawRows (m : List Host.Cell) (addr x y : Nat) : Nat → Framebuffer → Except Fault (Framebuffer × Bool)
  | 0, fb => .ok (fb, false)
  | n + 1, fb =>
    match memRead m addr with
    | .error f => .error f
    | .ok b =>
      let p := drawByte fb x y b
      match drawRows m (addr + 1) x (y + 1) n p.1 with
      | .error f => .error f
      | .ok q => .ok (q.1, p.2 || q.2)

/-- `clear()` (R201). -/
def clearDisplay (s : State) : State := { s with fb := blankFb }

/-- The state with another framebuffer. -/
def setFb (s : State) (fb : Framebuffer) : State := { s with fb := fb }

end Sys2Proof.Machine
end

