-- ==== Sys2Proof/Machine/Display.lean ====
section
/-! DEFINITION. The display instructions (spec/44_display.md R202, R203). -/

namespace Sys2Proof.Machine

/-- 00E0 (R202). -/
def execCls (s : State) : Host.Outcome State Fault Refusal :=
  .next (raiseDirty (clearDisplay s))

/-- Dxyn (R203): the coordinates are read before VF is written; VF and dirty are written also when `n = 0`. -/
def execDrw (x y : Reg) (n : Rows) (s : State) : Host.Outcome State Fault Refusal :=
  match drawRows s.mem (indexAddr s) (getV s x).toNat (getV s y).toNat n.toNat s.fb with
  | .error f => raise f
  | .ok p => .next (raiseDirty (setFlag (setFb s p.1) p.2))

end Sys2Proof.Machine
end

