-- ==== Sys2Proof/Machine/IndexMemory.lean ====
section
/-! DEFINITION. The index register, BCD, register store and load (spec/43_index_memory.md R180 to R186). `I` keeps its
value in Fx33, Fx55 and Fx65 (log entry 11). -/

namespace Sys2Proof.Machine

/-- The bytes stored at `I`, `I + 1`, ... (R183, R184). -/
def storeAtIndex (s : State) (bs : List Byte) : Host.Outcome State Fault Refusal :=
  match memWriteBytes s.mem (indexAddr s) bs with
  | .error f => raise f
  | .ok m => .next (setMem s m)

/-- Annn (R180). -/
def execLdI (nnn : Addr) (s : State) : Host.Outcome State Fault Refusal :=
  .next (setI s (addrOperand nnn))

/-- Fx1E (R181): modulo 65536, no flag (log entry 9). -/
def execAddI (x : Reg) (s : State) : Host.Outcome State Fault Refusal :=
  .next (setI s (s.I + byteOperand (getV s x)))

/-- Fx29 (R182). -/
def execLdF (x : Reg) (s : State) : Host.Outcome State Fault Refusal :=
  .next (setI s (glyphAddr (getV s x)))

/-- Fx33 (R183). -/
def execLdB (x : Reg) (s : State) : Host.Outcome State Fault Refusal :=
  storeAtIndex s (decimalDigits (getV s x))

/-- Fx55 (R184). -/
def execStoreRegs (x : Reg) (s : State) : Host.Outcome State Fault Refusal :=
  storeAtIndex s (regsUpTo s x)

/-- Fx65 (R185). -/
def execLoadRegs (x : Reg) (s : State) : Host.Outcome State Fault Refusal :=
  orRaise (loadRegsFrom s (indexAddr s) 0 (x.toNat + 1))

end Sys2Proof.Machine
end

