-- ==== Sys2Proof/Machine/KeysTimers.lean ====
section
/-! DEFINITION. Key tests, key wait, timer access (spec/45_keys_timers.md R220 to R225). -/

namespace Sys2Proof.Machine

/-- Ex9E (R220). -/
def execSkp (x : Reg) (s : State) : Host.Outcome State Fault Refusal :=
  .next (skipIf (keyMatches s x) s)

/-- ExA1 (R221): the exact negation of Ex9E's condition. -/
def execSknp (x : Reg) (s : State) : Host.Outcome State Fault Refusal :=
  .next (skipIf (!keyMatches s x) s)

/-- Fx07 (R223): DT before this step's tick. -/
def execLdVxDT (x : Reg) (s : State) : Host.Outcome State Fault Refusal :=
  .next (setV s x s.DT)

/-- Fx0A (R222): only the execution state changes (log entry 26). -/
def execLdVxK (x : Reg) (s : State) : Host.Outcome State Fault Refusal :=
  .next (setExecState s (.waitingForKey x))

/-- Fx15 (R224). -/
def execLdDTVx (x : Reg) (s : State) : Host.Outcome State Fault Refusal :=
  .next (setDT s (getV s x))

/-- Fx18 (R225). -/
def execLdSTVx (x : Reg) (s : State) : Host.Outcome State Fault Refusal :=
  .next (setST s (getV s x))

end Sys2Proof.Machine
end

