-- ==== Sys2Proof/Machine/LoadAlu.lean ====
section
/-! DEFINITION. Register load, arithmetic, logic, shifts, random (spec/42_load_alu.md R160 to R173). Operands are read
from `s`, before any write; the writes follow in the order of the instruction's row, the later one standing (R173,
log entry 10). -/

namespace Sys2Proof.Machine

/-- 6xkk (R160). -/
def execLdImm (x : Reg) (kk : Byte) (s : State) : Host.Outcome State Fault Refusal :=
  .next (setV s x kk)

/-- 7xkk (R161): 8-bit wrap, no flag. -/
def execAddImm (x : Reg) (kk : Byte) (s : State) : Host.Outcome State Fault Refusal :=
  .next (setV s x (getV s x + kk))

/-- 8xy0 (R162). -/
def execLdReg (x y : Reg) (s : State) : Host.Outcome State Fault Refusal :=
  .next (setV s x (getV s y))

/-- 8xy1 (R163). -/
def execOrReg (x y : Reg) (s : State) : Host.Outcome State Fault Refusal :=
  .next (setV s x (getV s x ||| getV s y))

/-- 8xy2 (R164). -/
def execAndReg (x y : Reg) (s : State) : Host.Outcome State Fault Refusal :=
  .next (setV s x (getV s x &&& getV s y))

/-- 8xy3 (R165). -/
def execXorReg (x y : Reg) (s : State) : Host.Outcome State Fault Refusal :=
  .next (setV s x (getV s x ^^^ getV s y))

/-- 8xy4 (R166): V[x] first, VF second. -/
def execAddReg (x y : Reg) (s : State) : Host.Outcome State Fault Refusal :=
  .next (setFlag (setV s x (getV s x + getV s y)) (carryOut (getV s x) (getV s y)))

/-- 8xy5 (R167): V[x] first, VF second. -/
def execSubReg (x y : Reg) (s : State) : Host.Outcome State Fault Refusal :=
  .next (setFlag (setV s x (getV s x - getV s y)) (noBorrow (getV s x) (getV s y)))

/-- 8xy6 (R168): VF first, V[x] second. -/
def execShr (x : Reg) (s : State) : Host.Outcome State Fault Refusal :=
  .next (setV (setFlag s (shiftedOutRight (getV s x))) x (getV s x >>> 1))

/-- 8xy7 (R169): V[x] first, VF second. -/
def execSubnReg (x y : Reg) (s : State) : Host.Outcome State Fault Refusal :=
  .next (setFlag (setV s x (getV s y - getV s x)) (noBorrow (getV s y) (getV s x)))

/-- 8xyE (R170): VF first, V[x] second. -/
def execShl (x : Reg) (s : State) : Host.Outcome State Fault Refusal :=
  .next (setV (setFlag s (shiftedOutLeft (getV s x))) x (getV s x <<< 1))

/-- Cxkk (R171): the step's random byte, masked. -/
def execRnd (x : Reg) (kk : Byte) (s : State) : Host.Outcome State Fault Refusal :=
  .next (setV s x (s.rnd &&& kk))

end Sys2Proof.Machine
end

