-- ==== Sys2Proof/Machine/Cycle.lean ====
section
/-! DEFINITION. The step of the core (spec/40_step_cycle.md R120 to R131) and the host's presenting of inputs. -/

namespace Sys2Proof.Machine

/-- `RunStep` (R122): clear dirty; fetch; decode; execute, tick, advance. A raise ends the step at that point (R129). -/
def runStep (s : State) : Host.Outcome State Fault Refusal :=
  match memReadWord (clearDirty s).mem (clearDirty s).pc.toNat with
  | .error f => raise f
  | .ok w =>
    match decode w with
    | .error _ => raise (.unknownInstruction w)
    | .ok i => onNext (exec i (clearDirty s)) (finishStep i)

/-- `WaitStep(r, key)` (R127, R128): nothing without a key; with one, V[r] and the execution state (log entry 7). -/
def waitStep (r : Reg) (s : State) : State :=
  match s.key with
  | none => s
  | some k => setExecState (setV s r (keyByte k)) .running

/-- The core's step (R121, R131). -/
def coreStep (s : State) : Host.Outcome State Fault Refusal :=
  match s.fault with
  | some f => raise f
  | none =>
    match s.execState with
    | .waitingForKey r => .next (waitStep r s)
    | .running => runStep s

/-- The host presents `key` and `rnd` for the coming step (spec/46_host_operations.md R243, R247). -/
def presentInputs (key : Option Key) (rnd : Byte) (s : State) : State := { s with key := key, rnd := rnd }

/-- Between steps the host chooses the inputs of the next step, freely (log entry 1). -/
def presentNext (s : State) : State :=
  { presentInputs (Config.hostKey (s.hostTick + 1)) (Config.hostRnd (s.hostTick + 1)) s with
    hostTick := s.hostTick + 1 }

/-- An address two bytes can be fetched from: `pc` if it is one, else ROM_BASE. For `withFetchWord` only. -/
def fetchablePc (s : State) : Word := if s.pc.toNat + 1 < Config.memSize then s.pc else Config.resetPc

/-- The state that fetches `w` next: the word stored at a fetchable pc, the machine running and not faulted (log entry
16). -/
def placeWord (s : State) (w : Word) : State :=
  { s with
    pc := fetchablePc s
    mem := Memory.set (Memory.set s.mem (fetchablePc s).toNat (highByte w)) ((fetchablePc s).toNat + 1) (lowByte w)
    execState := .running
    fault := none }

end Sys2Proof.Machine
end

