-- ==== Sys2Proof/Machine/Step.lean ====
section
/-! DEFINITION. One step: the core's step, then the host presents the inputs of the next one. -/

namespace Sys2Proof.Machine

/-- One step of the machine (spec/40_step_cycle.md R120, R121). It samples the inputs `s.key` and `s.rnd`; the next
state holds the host's next choice of them (log entry 1). -/
def step (s : State) : Host.Outcome State Fault Refusal :=
  onNext (coreStep s) presentNext

/-- `s` with the instruction whose bits are `w` stored where `step` fetches next (log entry 16). -/
def State.withFetchWord (s : State) (nbits w : Nat) : State :=
  placeWord s (tableWord nbits w)

end Sys2Proof.Machine
end

