-- ==== Sys2Proof/WellFormed.lean ====
section
/-! DEFINITION. What is well formed BEFORE it is decoded or loaded: a 16-bit word (it matches a row of the opcode map,
spec/30_encoding.md R95) and a ROM image (it fits, spec/46_host_operations.md R242). An `Instr` needs no check of its
own: every operand type has exactly the width of its field (R91, R93), so every term of `Instr` is well formed. The
opcode map stands here as mask and match, apart from the decoder, which follows the dispatch of R94: that the two
agree is a statement. -/

namespace Sys2Proof

/-- One row of the opcode map of R95: a word `w` is this instruction exactly when `w &&& mask = pattern`. -/
structure OpcodeRow where
  mask : Word
  pattern : Word
  deriving DecidableEq, Repr

/-- Rows 1 to 9 of R95: groups 0 to 7. -/
def WellFormed.rowsControl : List OpcodeRow :=
  [⟨0xFFFF, 0x00E0⟩, ⟨0xFFFF, 0x00EE⟩, ⟨0xF000, 0x1000⟩, ⟨0xF000, 0x2000⟩, ⟨0xF000, 0x3000⟩, ⟨0xF000, 0x4000⟩,
   ⟨0xF00F, 0x5000⟩, ⟨0xF000, 0x6000⟩, ⟨0xF000, 0x7000⟩]

/-- Rows 10 to 18 of R95: group 8. -/
def WellFormed.rowsAlu : List OpcodeRow :=
  [⟨0xF00F, 0x8000⟩, ⟨0xF00F, 0x8001⟩, ⟨0xF00F, 0x8002⟩, ⟨0xF00F, 0x8003⟩, ⟨0xF00F, 0x8004⟩, ⟨0xF00F, 0x8005⟩,
   ⟨0xF00F, 0x8006⟩, ⟨0xF00F, 0x8007⟩, ⟨0xF00F, 0x800E⟩]

/-- Rows 19 to 23 of R95: groups 9 to D. -/
def WellFormed.rowsMid : List OpcodeRow :=
  [⟨0xF00F, 0x9000⟩, ⟨0xF000, 0xA000⟩, ⟨0xF000, 0xB000⟩, ⟨0xF000, 0xC000⟩, ⟨0xF000, 0xD000⟩]

/-- Rows 24 to 34 of R95: groups E and F. -/
def WellFormed.rowsSystem : List OpcodeRow :=
  [⟨0xF0FF, 0xE09E⟩, ⟨0xF0FF, 0xE0A1⟩, ⟨0xF0FF, 0xF007⟩, ⟨0xF0FF, 0xF00A⟩, ⟨0xF0FF, 0xF015⟩, ⟨0xF0FF, 0xF018⟩,
   ⟨0xF0FF, 0xF01E⟩, ⟨0xF0FF, 0xF029⟩, ⟨0xF0FF, 0xF033⟩, ⟨0xF0FF, 0xF055⟩, ⟨0xF0FF, 0xF065⟩]

/-- The opcode map, all 34 rows in the order of R95. -/
def WellFormed.opcodeMap : List OpcodeRow :=
  WellFormed.rowsControl ++ WellFormed.rowsAlu ++ WellFormed.rowsMid ++ WellFormed.rowsSystem

/-- `w` is the instruction of this row (R95). -/
def OpcodeRow.matchesWord (r : OpcodeRow) (w : Word) : Bool :=
  w &&& r.mask == r.pattern

/-- A legal word: it matches a row of the opcode map (R95, R96). -/
def WellFormed.word (w : Word) : Bool :=
  WellFormed.opcodeMap.any fun r => r.matchesWord w

/-- A ROM image that fits: at most 3584 bytes, an empty one included (spec/46_host_operations.md R242). -/
def WellFormed.rom (bytes : List Byte) : Bool :=
  decide (bytes.length ≤ Config.romMax)

end Sys2Proof
end

