-- ==== Sys2Proof/Machine/HostOps.lean ====
section
/-! DEFINITION. The host-facing operations and ports (spec/46_host_operations.md R241 to R248, spec/60_exceptions.md
R264 to R266, spec/70_reset_and_hazards.md R290, R292). -/

namespace Sys2Proof.Machine

/-- The reset port: every piece of core state at its reset value, at any time (spec/70_reset_and_hazards.md R290). The
inputs are the host's and stay (log entry 25). -/
def resetRequest (s : State) : State :=
  { State.reset with key := s.key, rnd := s.rnd, hostTick := s.hostTick }

/-- The boot sequence's reset and ROM load (spec/46_host_operations.md R242, spec/70_reset_and_hazards.md R292): the
bytes copied to 0x200 on; a ROM that does not fit is refused as a whole, with `BoundsError(0x1000)` latched. A second
load, or one after the first step, has no meaning and cannot be written here (log entry 14). -/
def boot (rom : List Byte) : State :=
  if WellFormed.rom rom then
    match memWriteBytes State.reset.mem Config.romBase rom with
    | .ok m => setMem State.reset m
    | .error f => latchFault f State.reset
  else latchFault (boundsAt Config.memSize) State.reset

/-- The step of spec/40_step_cycle.md R120 as a function of the state and the two inputs. -/
def stepWith (key : Option Key) (rnd : Byte) (s : State) : Host.Outcome State Fault Refusal :=
  step (presentInputs key rnd s)

/-- The core's state after a faulting step: the latch is defined, all other state a free value
(spec/60_exceptions.md R264, R265; log entry 5). -/
def faultedState (f : Fault) (s : State) : State :=
  latchFault f (Config.afterFault s.hostTick s)

/-- A step request as the host sees it across faults (spec/60_exceptions.md R264, spec/40_step_cycle.md R131): on a
faulted core it changes nothing; otherwise the step's next state, or the latch set. -/
def stepRequest (s : State) : State :=
  match s.fault with
  | some _ => s
  | none =>
    match step s with
    | .next t => t
    | .fault f => faultedState f s
    | .refused _ => s

/-- The `dirty` output (spec/46_host_operations.md R245). -/
def dirtyOut (s : State) : Bool := s.dirty

/-- The pixel read port: `px = fb[px_y][px_x]` (spec/46_host_operations.md R246, spec/44_display.md R204). -/
def pixel (s : State) (x : BitVec 6) (y : BitVec 5) : Bool := pixelAt s.fb x.toNat y.toNat

/-- The `fault` output (spec/60_exceptions.md R264). -/
def faultOut (s : State) : Bool := s.fault.isSome

/-- The `fault_kind` output (spec/60_exceptions.md R266). -/
def faultKind (s : State) : BitVec 2 :=
  match s.fault with
  | none => 0
  | some (.unknownInstruction _) => 1
  | some (.unimplementedInstruction _) => 2
  | some (.boundsError _) => 3

/-- The `fault_info` output (spec/60_exceptions.md R266). -/
def faultInfo (s : State) : Word :=
  match s.fault with
  | none => 0
  | some (.unknownInstruction w) => w
  | some (.unimplementedInstruction w) => w
  | some (.boundsError index) => index

end Sys2Proof.Machine
end

