-- ==== Sys2Proof/Safety.lean ====
section
/-! DEFINITION. The terms the claims use: the invariant of spec/10_state.md R40, frames (what an instruction leaves
unchanged), and the reading of a sprite on the screen (spec/44_display.md R200, R203). -/

namespace Sys2Proof.Machine

/-- The invariant of every state reached from reset without a fault (spec/10_state.md R40 (a) to (d), (f); (e) holds by
the type of the register number), and the canonical form of memory. -/
structure Inv (s : State) : Prop where
  /-- (a) `sp` is at most 16. -/
  sp_le : s.sp.toNat ≤ 16
  /-- (b) every entry in use is the address of a fetched call. -/
  stack_le : ∀ k : Fin 16, k.val < s.sp.toNat → s.stack[k.val].toNat ≤ 0xFFE
  /-- (c) `pc` is at most 0x10FE. -/
  pc_le : s.pc.toNat ≤ 0x10FE
  /-- (d) waiting for a key implies a clear dirty flag. -/
  wait_clean : ∀ r, s.execState = .waitingForKey r → s.dirty = false
  /-- (f) no fault is latched. -/
  no_fault : s.fault = none
  /-- memory is in its canonical form. -/
  mem_wf : Memory.wf s.mem = true

/-- The pieces of state an instruction can change, as a frame names them. -/
inductive Piece where
  | V | I | pc | stack | DT | ST | execState | dirty | mem | fb | fault | inputs
  deriving DecidableEq, Repr

/-- The piece is the same in both states; memory is compared by reading every byte. -/
def keeps (s t : State) : Piece → Prop
  | .V => ∀ r, getV t r = getV s r
  | .I => t.I = s.I
  | .pc => t.pc = s.pc
  | .stack => t.stack = s.stack ∧ t.sp = s.sp
  | .DT => t.DT = s.DT
  | .ST => t.ST = s.ST
  | .execState => t.execState = s.execState
  | .dirty => t.dirty = s.dirty
  | .mem => ∀ a, Memory.get t.mem a = Memory.get s.mem a
  | .fb => t.fb = s.fb
  | .fault => t.fault = s.fault
  | .inputs => t.key = s.key ∧ t.rnd = s.rnd ∧ t.hostTick = s.hostTick

/-- Every piece not named is the same in both states. -/
def SameBut (changed : List Piece) (s t : State) : Prop := ∀ p, p ∉ changed → keeps s t p

/-- Every general register not named is the same in both states. -/
def SameRegsBut (changed : List Reg) (s t : State) : Prop := ∀ r, r ∉ changed → getV t r = getV s r

/-- The outcome is a next state with the value `v` in V[x] and every other register and piece of state as in `s`. -/
def SetsReg (o : Host.Outcome State Fault Refusal) (s : State) (x : Reg) (v : Nat) : Prop :=
  ∃ t, o = .next t ∧ (getV t x).toNat = v ∧ SameRegsBut [x] s t ∧ SameBut [.V] s t

/-- The outcome is a next state with the value `v` in V[x] and then the value `flag` in VF, which stands when x = 15
(spec/42_load_alu.md R173 (a)), and every other register and piece of state as in `s`. -/
def SetsRegThenFlag (o : Host.Outcome State Fault Refusal) (s : State) (x : Reg) (v flag : Nat) : Prop :=
  ∃ t, o = .next t ∧ (x ≠ VF → (getV t x).toNat = v) ∧ (getV t VF).toNat = flag ∧ SameRegsBut [x, VF] s t ∧
    SameBut [.V] s t

/-- The word of `i` has the mask and match the rule of `i` gives, and is read back as `i` (spec/30_encoding.md R95,
R102). -/
def EncodedAs (i : Instr) (mask pattern : Word) : Prop := encode i &&& mask = pattern ∧ decode (encode i) = .ok i

/-- Every byte of memory outside the `len` bytes at `addr` reads the same in both states. -/
def SameBytesBut (addr len : Nat) (s t : State) : Prop :=
  ∀ a, (a < addr ∨ addr + len ≤ a) → Memory.get t.mem a = Memory.get s.mem a

/-- The address reported by a run of `len` accesses from `addr` that leaves the address space: the first offending one
(spec/20_memory.md R64). -/
def firstOffence (addr : Nat) : Word := BitVec.ofNat 16 (if addr > 0xFFF then addr else 0x1000)

/-- Whether the pixel at column `col`, row `row` lies under a set bit of the `n`-row sprite whose bytes `byte 0`,
`byte 1`, ... are drawn at `(x, y)` with both coordinates wrapping (spec/44_display.md R200, R203): its row is `r < n`
rows below `y` modulo 32, its column `c < 8` columns right of `x` modulo 64, and bit `7 - c` of row `r` is set. -/
def spriteCovers (byte : Nat → Byte) (n x y col row : Nat) : Bool :=
  (List.range n).any fun r => (List.range 8).any fun c =>
    (y + r) % 32 == row && (x + c) % 64 == col && (byte r).getLsbD (7 - c)

/-- The pieces an instruction writes: the "w" entries of its row in the access table of spec/10_state.md R41. -/
def writtenBy : Instr → List Piece
  | .cls => [.fb, .dirty]
  | .ret | .call _ => [.pc, .stack]
  | .jp _ | .jpV0 _ | .seImm _ _ | .sneImm _ _ | .seReg _ _ | .sneReg _ _ | .skp _ | .sknp _ => [.pc]
  | .ldImm _ _ | .addImm _ _ | .ldReg _ _ | .orReg _ _ | .andReg _ _ | .xorReg _ _ | .addReg _ _ | .subReg _ _
  | .shr _ _ | .subnReg _ _ | .shl _ _ | .rnd _ _ | .ldVxDT _ | .loadRegs _ => [.V]
  | .ldI _ | .addI _ | .ldF _ => [.I]
  | .drw _ _ _ => [.V, .fb, .dirty]
  | .ldVxK _ => [.execState]
  | .ldDTVx _ => [.DT]
  | .ldSTVx _ => [.ST]
  | .ldB _ | .storeRegs _ => [.mem]

/-- Whether an instruction writes VF: the six flag instructions of spec/10_state.md R22, and every instruction that
writes V[x] (or a range of registers) reaching register 15. -/
def writesVF : Instr → Bool
  | .addReg _ _ | .subReg _ _ | .shr _ _ | .subnReg _ _ | .shl _ _ | .drw _ _ _ => true
  | .ldImm x _ | .addImm x _ | .ldReg x _ | .orReg x _ | .andReg x _ | .xorReg x _ | .rnd x _ | .ldVxDT x
  | .loadRegs x => x == VF
  | .cls | .ret | .jp _ | .call _ | .seImm _ _ | .sneImm _ _ | .seReg _ _ | .sneReg _ _ | .ldI _ | .jpV0 _ | .skp _
  | .sknp _ | .ldVxK _ | .ldDTVx _ | .ldSTVx _ | .addI _ | .ldF _ | .ldB _ | .storeRegs _ => false

/-- The error an instruction raises in its execute item, if any: the complete list of spec/60_exceptions.md R277. -/
def faultOf (i : Instr) (s : State) : Option Fault :=
  match i with
  | .call _ => if 16 ≤ s.sp.toNat then some (.boundsError (s.sp.setWidth 16)) else none
  | .ret => if s.sp.toNat = 0 then some (.boundsError 255) else none
  | .ldB _ => if s.I.toNat + 2 > 0xFFF then some (.boundsError (firstOffence s.I.toNat)) else none
  | .storeRegs x | .loadRegs x =>
    if s.I.toNat + x.toNat > 0xFFF then some (.boundsError (firstOffence s.I.toNat)) else none
  | .drw _ _ n =>
    if 1 ≤ n.toNat ∧ s.I.toNat + n.toNat - 1 > 0xFFF then some (.boundsError (firstOffence s.I.toNat)) else none
  | .cls | .jp _ | .seImm _ _ | .sneImm _ _ | .seReg _ _ | .ldImm _ _ | .addImm _ _ | .ldReg _ _ | .orReg _ _
  | .andReg _ _ | .xorReg _ _ | .addReg _ _ | .subReg _ _ | .shr _ _ | .subnReg _ _ | .shl _ _ | .sneReg _ _ | .ldI _
  | .jpV0 _ | .rnd _ _ | .skp _ | .sknp _ | .ldVxDT _ | .ldVxK _ | .ldDTVx _ | .ldSTVx _ | .addI _ | .ldF _ => none

/-- The word at `pc`, high byte first (spec/20_memory.md R65). -/
def wordAtPc (s : State) : Word :=
  wordOfBytes (Memory.get s.mem s.pc.toNat) (Memory.get s.mem (s.pc.toNat + 1))

/-- A step of `s` executes `i`: no fault is latched, the machine runs, and the two bytes at `pc` exist and decode to
`i` (spec/40_step_cycle.md R121 to R123). -/
structure Runs (s : State) (i : Instr) : Prop where
  no_fault : s.fault = none
  running : s.execState = .running
  fetchable : s.pc.toNat ≤ 0xFFE
  decodes : decode (wordAtPc s) = .ok i

/-- How many pixels of a framebuffer are set (spec/44_display.md R206 (d)). -/
def litPixels (fb : Framebuffer) : Nat := (fb.toList.map fun row => row.toList.countP (· = true)).sum

/-- The number of 1 bits of a byte (spec/44_display.md R206 (d)). -/
def bitCount (b : Byte) : Nat := (List.range 8).countP fun i => b.getLsbD i

end Sys2Proof.Machine
end

