-- ==== Sys2Proof/Certificates/Slice0/Obligations.lean ====
section
/-! DEFINITION. The statements for the provers. Each docstring names the rules of spec/ it formalises; where a clause
rests on a decision or a derivation the spec marks as its own, or on a choice of the model, the docstring says so and
names the log entry. -/

open Sys2Proof Sys2Proof.Machine

/-! ### Encoding -/

/-- Every instruction, with every operand at every value, is read back from its encoding (30_encoding.md section 4,
"Encoding an instruction is the inverse", which the spec marks as derived). -/
def Obligations.DecodeInvertsEncode : Prop := ∀ i : Instr, decode (encode i) = .ok i

/-- A word that decodes is the encoding of what it decodes to: every legal word has exactly one meaning and no bit of
it is dropped (30_encoding.md section 4, derived there). -/
def Obligations.EncodeInvertsDecode : Prop := ∀ (w : Word) (i : Instr), decode w = .ok i → encode i = w

/-- The words the decoder rejects are exactly the listed ones of each group (the table of 30_encoding.md section 3;
groups 5 and 9 by the spec's decision D14, log entry 12). -/
def Obligations.RejectedWordsAreTheListedGroups : Prop := ∀ w : Word,
  (decode w = .error (.unknownInstruction w)) ↔
    ((fieldOp w = 0x0 ∧ w ≠ 0x00E0 ∧ w ≠ 0x00EE) ∨
     (fieldOp w = 0x5 ∧ fieldN w ≠ 0) ∨
     (fieldOp w = 0x8 ∧ fieldN w ∈ [0x8#4, 0x9#4, 0xA#4, 0xB#4, 0xC#4, 0xD#4, 0xF#4]) ∨
     (fieldOp w = 0x9 ∧ fieldN w ≠ 0) ∨
     (fieldOp w = 0xE ∧ fieldKk w ∉ [0x9E#8, 0xA1#8]) ∨
     (fieldOp w = 0xF ∧ fieldKk w ∉ [0x07#8, 0x0A#8, 0x15#8, 0x18#8, 0x1E#8, 0x29#8, 0x33#8, 0x55#8, 0x65#8]))

/-- The dispatch decodes exactly the words that match a row of the opcode map, which is written apart from it as mask
and match (30_encoding.md section 3). -/
def Obligations.DecoderAgreesWithOpcodeMap : Prop := ∀ w : Word,
  (WellFormed.word w = true ↔ ∃ i, decode w = .ok i) ∧
  (WellFormed.word w = false ↔ decode w = .error (.unknownInstruction w))

/-- "No two rows match the same word" (30_encoding.md section 3, derived there). -/
def Obligations.OpcodeRowsAreDisjoint : Prop := ∀ (w : Word), ∀ r ∈ WellFormed.opcodeMap, ∀ q ∈ WellFormed.opcodeMap,
  r.matchesWord w = true → q.matchesWord w = true → r = q

/-- Words of the spec's own table of encoding checks, one per family at least, decode as that table says
(95_test_vectors.md part 4). -/
def Obligations.SpecWordsDecode : Prop :=
  decode 0x00E0 = .ok .cls ∧ decode 0x00EE = .ok .ret ∧ decode 0x1FFF = .ok (.jp 0xFFF) ∧
  decode 0x3AFF = .ok (.seImm 10 0xFF) ∧ decode 0x5AB0 = .ok (.seReg 10 11) ∧ decode 0x83A4 = .ok (.addReg 3 10) ∧
  decode 0x83AE = .ok (.shl 3 10) ∧ decode 0xB123 = .ok (.jpV0 0x123) ∧ decode 0xDAB5 = .ok (.drw 10 11 5) ∧
  decode 0xEFA1 = .ok (.sknp 15) ∧ decode 0xF033 = .ok (.ldB 0) ∧ decode 0xF00A = .ok (.ldVxK 0) ∧
  decode 0x5AB1 = .error (.unknownInstruction 0x5AB1) ∧ decode 0x83A8 = .error (.unknownInstruction 0x83A8)

/-! ### The step -/

/-- When the two bytes at `pc` decode to `i`, a step is `exec i` on the state with dirty cleared, then the tick and the
advance of the step, then the host's presenting of the next inputs (40_step_cycle.md sections 1 and 2; the presenting
is the model's choice, log entry 1). -/
def Obligations.StepRunsDecodedInstruction : Prop := ∀ (s : State) (i : Instr), Runs s i →
  step s = onNext (onNext (exec i (clearDirty s)) (finishStep i)) presentNext

/-- The six items of a Running step, in their order: the fetch raises for a `pc` above 0xFFE; an illegal word raises;
an error of the execute item ends the step; else both timers go down by one unless zero, and `pc` advances by 2 unless
the instruction is 1nnn, 2nnn or Bnnn (40_step_cycle.md section 2; the fetch's error is the spec's decision D3, log
entry 3; the inputs of the following step are the host's, log entry 1). -/
def Obligations.RunningStepFollowsTheSixItems : Prop := ∀ s : State, s.fault = none → s.execState = .running →
  (0xFFE < s.pc.toNat → step s = .fault (.boundsError (firstOffence s.pc.toNat))) ∧
  (s.pc.toNat ≤ 0xFFE → ∀ r, decode (wordAtPc s) = .error r → step s = .fault (.unknownInstruction (wordAtPc s))) ∧
  (s.pc.toNat ≤ 0xFFE → ∀ i, decode (wordAtPc s) = .ok i →
    (∀ f, exec i { s with dirty := false } = .fault f → step s = .fault f) ∧
    (∀ t, exec i { s with dirty := false } = .next t → ∃ u, step s = .next u ∧
      SameBut [.pc, .DT, .ST, .inputs] t u ∧
      u.DT = (if t.DT = 0 then 0 else t.DT - 1) ∧ u.ST = (if t.ST = 0 then 0 else t.ST - 1) ∧
      ((∃ nnn, i = .jp nnn ∨ i = .call nnn ∨ i = .jpV0 nnn) → u.pc = t.pc) ∧
      ((¬ ∃ nnn, i = .jp nnn ∨ i = .call nnn ∨ i = .jpV0 nnn) → u.pc = t.pc + 2)))

/-- A step of a core that has no fault latched raises `UnknownInstruction(w)` exactly when it is a Running step whose
fetch succeeds and gives the word `w`, and `w` matches no row of the opcode map (60_exceptions.md sections 1 and 3,
30_encoding.md section 3). That the fetch succeeds exactly up to 0xFFE is the spec's decision D3 (40_step_cycle.md
section 2, log entry 3); that groups 5 and 9 with a nonzero low nibble are illegal is its decision D14 (log entry
12). -/
def Obligations.UnknownInstructionRaisedExactlyByIllegalWords : Prop := ∀ (s : State) (w : Word), s.fault = none →
  (step s = .fault (.unknownInstruction w) ↔
    (s.execState = .running ∧ s.pc.toNat ≤ 0xFFE ∧ wordAtPc s = w ∧ WellFormed.word w = false))

/-- R127: a WaitingForKey step with no key changes nothing of the core. -/
def Obligations.WaitWithoutKeyIsNoOp : Prop := ∀ (s : State) (r : Reg), s.fault = none →
  s.execState = .waitingForKey r → s.key = none → ∃ t, step s = .next t ∧ SameBut [.inputs] s t

/-- A WaitingForKey step with a key stores it in the register and returns to Running, and changes nothing else: no
tick, no fetch, no advance (40_step_cycle.md section 3; the absence of a tick is the spec's decision D9, log entry
7). -/
def Obligations.WaitWithKeyTakesIt : Prop := ∀ (s : State) (r : Reg) (k : Key), s.fault = none →
  s.execState = .waitingForKey r → s.key = some k →
  ∃ t, step s = .next t ∧ (getV t r).toNat = k.toNat ∧ t.execState = .running ∧ SameRegsBut [r] s t ∧
    SameBut [.V, .execState, .inputs] s t

/-- A step requested of a faulted core reports the same fault, whatever the inputs, and the request changes nothing
(40_step_cycle.md section 4, the spec's decision D6, log entry 5). -/
def Obligations.FaultedCoreIgnoresSteps : Prop := ∀ (s : State) (f : Fault), s.fault = some f →
  step s = .fault f ∧ (∀ key rnd, stepWith key rnd s = .fault f) ∧ stepRequest s = s

/-- A step that raises latches its fault; every later request changes nothing; a reset clears the latch
(60_exceptions.md section 2, the spec's decision D6; all other state is the free value of log entry 5). -/
def Obligations.FaultIsLatchedUntilReset : Prop := ∀ (s : State) (f : Fault), s.fault = none → step s = .fault f →
  (stepRequest s).fault = some f ∧ stepRequest (stepRequest s) = stepRequest s ∧
  (resetRequest (stepRequest s)).fault = none

/-- No step is refused, and no step of an unfaulted core raises `UnimplementedInstruction` (60_exceptions.md sections 1
and 9, derived there and by the spec's decision D19, log entry 18). -/
def Obligations.StepNeverRefusesNorRaisesUnimplemented : Prop := ∀ s : State,
  (∀ r, step s ≠ .refused r) ∧ (s.fault = none → ∀ w, step s ≠ .fault (.unimplementedInstruction w))

/-- The complete list of (instruction, error) pairs of the execute item: an instruction raises `f` exactly when the
list says so (60_exceptions.md section 9, derived there; `sp` at most 16 is the invariant `Inv`). -/
def Obligations.ExecFaultsExactlyAsListed : Prop := ∀ (i : Instr) (s : State), s.sp.toNat ≤ 16 →
  ∀ f, exec i s = .fault f ↔ faultOf i s = some f

/-- Every instruction answers a next state wherever the list of errors gives it none (60_exceptions.md section 9,
derived there). -/
def Obligations.ExecCompletesWhereNoFaultIsListed : Prop := ∀ (i : Instr) (s : State), s.sp.toNat ≤ 16 →
  faultOf i s = none → ∃ t, exec i s = .next t

/-! ### Whole-machine rules -/

/-- The write side of the access table: an instruction changes no piece of state its row does not mark with w
(10_state.md section 9). -/
def Obligations.ExecWritesOnlyItsAccessRow : Prop := ∀ (i : Instr) (s t : State), exec i s = .next t →
  SameBut (writtenBy i) s t

/-- VF keeps its value in every instruction that is not one of the six flag instructions and does not name register 15
as its destination (10_state.md section 2). -/
def Obligations.VFWrittenOnlyByFlagInstructionsOrByName : Prop := ∀ (i : Instr) (s t : State), exec i s = .next t →
  writesVF i = false → getV t VF = getV s VF

/-- "The display is changed by nothing but 00E0 and Dxyn" (44_display.md section 3), over whole steps. -/
def Obligations.DisplayChangedOnlyByClearAndDraw : Prop := ∀ s t : State, step s = .next t → t.fb ≠ s.fb →
  ∃ i, Runs s i ∧ (i = .cls ∨ ∃ x y n, i = .drw x y n)

/-- Memory is written only by Fx33 and Fx55 (20_memory.md sections 3 and 5), over whole steps. -/
def Obligations.MemoryChangedOnlyByStores : Prop := ∀ s t : State, step s = .next t →
  (∃ a, Memory.get t.mem a ≠ Memory.get s.mem a) → ∃ i, Runs s i ∧ ∃ x, i = .ldB x ∨ i = .storeRegs x

/-- R31: after a step dirty is 1 exactly when that step executed 00E0 or Dxyn without fault; in state WaitingForKey it
is 0; a Running step clears it first, so it runs alike from either value; no instruction reads it. The premise `Inv` is
the invariant every step keeps. -/
def Obligations.DirtyExactlyAfterClearOrDraw : Prop :=
  (∀ s t : State, Inv s → step s = .next t →
    (t.dirty = true ↔ ∃ i, Runs s i ∧ (i = .cls ∨ ∃ x y n, i = .drw x y n)) ∧
    (∀ r, t.execState = .waitingForKey r → t.dirty = false)) ∧
  (∀ (s : State) (b : Bool), s.fault = none → s.execState = .running → step { s with dirty := b } = step s) ∧
  (∀ (i : Instr) (s : State) (b : Bool),
    onNext (exec i { s with dirty := b }) clearDirty = onNext (exec i s) clearDirty)

/-- R30: the only transitions of the execution state: Running to WaitingForKey(x) by Fx0A, WaitingForKey(r) to Running
by a step that finds a key. -/
def Obligations.ExecutionStateTransitions : Prop := ∀ s t : State, step s = .next t →
  (s.execState = .running →
    (∀ x, Runs s (.ldVxK x) → t.execState = .waitingForKey x) ∧
    ((¬ ∃ x, Runs s (.ldVxK x)) → t.execState = .running)) ∧
  (∀ r, s.execState = .waitingForKey r →
    (s.key = none → t.execState = .waitingForKey r) ∧ (s.key ≠ none → t.execState = .running))

/-- Only Cxkk uses the random byte: any other instruction does the same with any other byte (10_state.md section
7). -/
def Obligations.OnlyRndReadsTheRandomByte : Prop := ∀ (i : Instr) (s : State) (b : Byte), (∀ x kk, i ≠ .rnd x kk) →
  exec i { s with rnd := b } = onNext (exec i s) fun t => { t with rnd := b }

/-- Only Ex9E and ExA1 look at the key latch: any other instruction, Fx0A among them, does the same with any other
latch (10_state.md sections 7 and 9, 45_keys_timers.md section 2). -/
def Obligations.OnlyKeyTestsReadTheKey : Prop := ∀ (i : Instr) (s : State) (k : Option Key),
  (∀ x, i ≠ .skp x) → (∀ x, i ≠ .sknp x) →
  exec i { s with key := k } = onNext (exec i s) fun t => { t with key := k }

/-- No instruction reads the sound timer (10_state.md section 4). -/
def Obligations.NoInstructionReadsTheSoundTimer : Prop := ∀ (i : Instr) (s : State) (v : Byte),
  (∀ x, i ≠ .ldSTVx x) → exec i { s with ST := v } = onNext (exec i s) fun t => { t with ST := v }

/-! ### The invariant, reset and boot -/

/-- Every step from a state that meets the invariant of 10_state.md section 9 (derived there), and whose memory is in
canonical form, gives a state that meets it. -/
def Obligations.StepKeepsInvariant : Prop := ∀ s t : State, Inv s → step s = .next t → Inv t

/-- The invariant holds right after reset. -/
def Obligations.ResetMeetsInvariant : Prop := Inv State.reset

/-- The invariant holds after the boot sequence, for every ROM that fits. -/
def Obligations.BootMeetsInvariant : Prop := ∀ rom : List Byte, rom.length ≤ 3584 → Inv (boot rom)

/-- The state right after reset (10_state.md section 8). Of these values the source states pc, exec and the presence of
the font; the zeros are the spec's decision D8 (log entry 2), the font's bytes are from general knowledge (log entry
6). -/
def Obligations.ResetState : Prop :=
  (∀ r, getV State.reset r = 0) ∧ State.reset.I = 0 ∧ State.reset.pc = 0x200 ∧ State.reset.sp = 0 ∧
  (∀ k : Fin 16, State.reset.stack[k.val] = 0) ∧ State.reset.DT = 0 ∧ State.reset.ST = 0 ∧
  State.reset.execState = .running ∧ State.reset.dirty = false ∧ State.reset.fault = none ∧
  (∀ x y, pixel State.reset x y = false) ∧
  (∀ a, 0x50 ≤ a → Memory.get State.reset.mem a = 0) ∧
  ((List.range 40).map fun a => Memory.get State.reset.mem a) =
    [0xF0, 0x90, 0x90, 0x90, 0xF0, 0x20, 0x60, 0x20, 0x20, 0x70] ++
    [0xF0, 0x10, 0xF0, 0x80, 0xF0, 0xF0, 0x10, 0xF0, 0x10, 0xF0] ++
    [0x90, 0x90, 0xF0, 0x10, 0x10, 0xF0, 0x80, 0xF0, 0x10, 0xF0] ++
    [0xF0, 0x80, 0xF0, 0x90, 0xF0, 0xF0, 0x10, 0x20, 0x40, 0x40] ∧
  ((List.range 40).map fun a => Memory.get State.reset.mem (40 + a)) =
    [0xF0, 0x90, 0xF0, 0x90, 0xF0, 0xF0, 0x90, 0xF0, 0x10, 0xF0] ++
    [0xF0, 0x90, 0xF0, 0x90, 0x90, 0xE0, 0x90, 0xE0, 0x90, 0xE0] ++
    [0xF0, 0x80, 0x80, 0x80, 0xF0, 0xE0, 0x90, 0x90, 0x90, 0xE0] ++
    [0xF0, 0x80, 0xF0, 0x80, 0xF0, 0xF0, 0x80, 0xF0, 0x80, 0x80]

/-- A reset request puts every piece of the core at its reset value, from any state, and leaves the host's inputs
(70_reset_and_hazards.md section 1, the spec's decision D8, log entry 25). -/
def Obligations.ResetRequestResetsTheCore : Prop := ∀ s : State,
  SameBut [.inputs] State.reset (resetRequest s) ∧ keeps s (resetRequest s) .inputs

/-- The boot sequence copies the ROM to 0x200 on and changes nothing else of the reset state; a ROM of more than 3584
bytes writes nothing and latches `BoundsError(0x1000)` (46_host_operations.md section 3, the spec's decision D18, log
entry 14). -/
def Obligations.BootLoadsTheRom : Prop := ∀ rom : List Byte,
  (rom.length ≤ 3584 →
    (∀ k, (h : k < rom.length) → Memory.get (boot rom).mem (0x200 + k) = rom[k]) ∧
    SameBytesBut 0x200 rom.length State.reset (boot rom) ∧ SameBut [.mem] State.reset (boot rom)) ∧
  (3584 < rom.length →
    (boot rom).fault = some (.boundsError 0x1000) ∧ SameBut [.fault] State.reset (boot rom))

/-- The first instruction executed after boot is the one whose high byte is ROM byte 0 and whose low byte is ROM byte
1; an empty ROM makes the first step raise `UnknownInstruction(0x0000)` (70_reset_and_hazards.md section 2,
46_host_operations.md section 3; the latter rests on the spec's decisions D8 and D18). -/
def Obligations.BootRunsTheFirstRomWord : Prop :=
  (∀ (hi lo : Byte) (rest : List Byte) (i : Instr), (hi :: lo :: rest).length ≤ 3584 →
    decode (wordOfBytes hi lo) = .ok i → Runs (boot (hi :: lo :: rest)) i) ∧
  step (boot []) = .fault (.unknownInstruction 0x0000)

/-- The fault outputs: the codes and the info of each kind (60_exceptions.md section 2, the spec's decision D7, log
entry 18). -/
def Obligations.FaultOutputs : Prop := ∀ (s : State) (w : Word),
  (s.fault = none → faultOut s = false ∧ faultKind s = 0 ∧ faultInfo s = 0) ∧
  (s.fault = some (.unknownInstruction w) → faultOut s = true ∧ faultKind s = 1 ∧ faultInfo s = w) ∧
  (s.fault = some (.unimplementedInstruction w) → faultOut s = true ∧ faultKind s = 2 ∧ faultInfo s = w) ∧
  (s.fault = some (.boundsError w) → faultOut s = true ∧ faultKind s = 3 ∧ faultInfo s = w)

/-! ### Control transfer -/

/-- R140: 1nnn sets `pc` to exactly nnn, and the step's advance leaves it there; nothing else changes. -/
def Obligations.JumpSetsPc : Prop := ∀ (nnn : Addr) (s : State),
  EncodedAs (.jp nnn) 0xF000 0x1000 ∧ ∃ t, exec (.jp nnn) s = .next t ∧
  t.pc.toNat = nnn.toNat ∧ (finishStep (.jp nnn) t).pc.toNat = nnn.toNat ∧ SameBut [.pc] s t

/-- 2nnn with room on the stack pushes the address of the call itself, advances `sp` and sets `pc` to nnn, where the
step leaves it; nothing else changes (41_control_flow.md, 2nnn; the limit of 16 is the spec's decision D5, log entry
4). -/
def Obligations.CallPushesItsOwnAddress : Prop := ∀ (nnn : Addr) (s : State), s.sp.toNat < 16 →
  ∃ t, exec (.call nnn) s = .next t ∧ t.pc.toNat = nnn.toNat ∧ (finishStep (.call nnn) t).pc.toNat = nnn.toNat ∧
    t.sp.toNat = s.sp.toNat + 1 ∧
    (∀ k : Fin 16, t.stack[k.val] = if k.val = s.sp.toNat then s.pc else s.stack[k.val]) ∧
    SameBut [.pc, .stack] s t

/-- 00EE with a call outstanding restores `pc` from the entry below `sp`, keeps the entries, and the step then adds 2;
nothing else changes (41_control_flow.md, 00EE; 90_conflicts.md C1; the limits are the spec's decision D5, log entry
4; `sp` at most 16 is the invariant `Inv`). -/
def Obligations.ReturnRestoresPc : Prop := ∀ s : State, 1 ≤ s.sp.toNat → s.sp.toNat ≤ 16 →
  ∃ t, exec .ret s = .next t ∧ t.sp.toNat + 1 = s.sp.toNat ∧ t.stack = s.stack ∧
    (∀ k : Fin 16, k.val + 1 = s.sp.toNat → t.pc = s.stack[k.val]) ∧ (finishStep .ret t).pc = t.pc + 2 ∧
    SameBut [.pc, .stack] s t

/-- A call followed by a return ends at the instruction after the call with `sp` as before (41_control_flow.md, 00EE,
"for call depth within stack capacity"). -/
def Obligations.CallThenReturnResumesAfterTheCall : Prop := ∀ (nnn : Addr) (s : State), s.sp.toNat < 16 →
  ∃ t u, exec (.call nnn) s = .next t ∧ exec .ret (finishStep (.call nnn) t) = .next u ∧
    (finishStep .ret u).pc = s.pc + 2 ∧ u.sp = s.sp

/-- R143: Bnnn sets `pc` to nnn + V0, not reduced to 12 bits, and the step leaves it there; nothing else changes. -/
def Obligations.JumpWithOffsetAddsV0 : Prop := ∀ (nnn : Addr) (s : State),
  EncodedAs (.jpV0 nnn) 0xF000 0xB000 ∧ ∃ t, exec (.jpV0 nnn) s = .next t ∧
  t.pc.toNat = nnn.toNat + (getV s 0).toNat ∧ (finishStep (.jpV0 nnn) t).pc = t.pc ∧ SameBut [.pc] s t

/-- R144, R145: 3xkk ends its step at pc + 4 when V[x] = kk and at pc + 2 when not; 4xkk the other way round; nothing
else changes. -/
def Obligations.SkipsOnImmediate : Prop := ∀ (x : Reg) (kk : Byte) (s : State),
  EncodedAs (.seImm x kk) 0xF000 0x3000 ∧ EncodedAs (.sneImm x kk) 0xF000 0x4000 ∧
  ∃ t u, exec (.seImm x kk) s = .next t ∧ exec (.sneImm x kk) s = .next u ∧
    (getV s x = kk → (finishStep (.seImm x kk) t).pc = s.pc + 4 ∧ (finishStep (.sneImm x kk) u).pc = s.pc + 2) ∧
    (getV s x ≠ kk → (finishStep (.seImm x kk) t).pc = s.pc + 2 ∧ (finishStep (.sneImm x kk) u).pc = s.pc + 4) ∧
    SameBut [.pc] s t ∧ SameBut [.pc] s u

/-- 5xy0 ends its step at pc + 4 when V[x] = V[y] and at pc + 2 when not; 9xy0 the other way round; nothing else
changes; a nonzero low nibble is no instruction (41_control_flow.md, 5xy0 and 9xy0; the nibble is the spec's decision
D14, log entry 12). -/
def Obligations.SkipsOnRegisters : Prop := ∀ (x y : Reg) (s : State),
  EncodedAs (.seReg x y) 0xF00F 0x5000 ∧ EncodedAs (.sneReg x y) 0xF00F 0x9000 ∧
  (∀ w : Word, (fieldOp w = 0x5 ∨ fieldOp w = 0x9) → fieldN w ≠ 0 → decode w = .error (.unknownInstruction w)) ∧
  ∃ t u, exec (.seReg x y) s = .next t ∧ exec (.sneReg x y) s = .next u ∧
    (getV s x = getV s y → (finishStep (.seReg x y) t).pc = s.pc + 4 ∧ (finishStep (.sneReg x y) u).pc = s.pc + 2) ∧
    (getV s x ≠ getV s y → (finishStep (.seReg x y) t).pc = s.pc + 2 ∧ (finishStep (.sneReg x y) u).pc = s.pc + 4) ∧
    SameBut [.pc] s t ∧ SameBut [.pc] s u

/-! ### Load and arithmetic -/

/-- R160, R161, R162: 6xkk sets V[x] to kk; 7xkk adds kk modulo 256 and writes no flag; 8xy0 copies V[y]. No other
register and nothing else changes. -/
def Obligations.LoadsAndImmediateAdd : Prop := ∀ (x y : Reg) (kk : Byte) (s : State),
  EncodedAs (.ldImm x kk) 0xF000 0x6000 ∧ EncodedAs (.addImm x kk) 0xF000 0x7000 ∧
  EncodedAs (.ldReg x y) 0xF00F 0x8000 ∧
  SetsReg (exec (.ldImm x kk) s) s x kk.toNat ∧
  SetsReg (exec (.addImm x kk) s) s x (((getV s x).toNat + kk.toNat) % 256) ∧
  SetsReg (exec (.ldReg x y) s) s x (getV s y).toNat

/-- R163, R164, R165: OR, AND and XOR work bit by bit on V[x] and V[y] and write no flag. No other register and nothing
else changes. -/
def Obligations.LogicIsBitwiseWithoutFlag : Prop := ∀ (x y : Reg) (s : State),
  EncodedAs (.orReg x y) 0xF00F 0x8001 ∧ EncodedAs (.andReg x y) 0xF00F 0x8002 ∧
  EncodedAs (.xorReg x y) 0xF00F 0x8003 ∧
  ∃ t u v, exec (.orReg x y) s = .next t ∧ exec (.andReg x y) s = .next u ∧ exec (.xorReg x y) s = .next v ∧
    (∀ b, b < 8 → (getV t x).getLsbD b = ((getV s x).getLsbD b || (getV s y).getLsbD b)) ∧
    (∀ b, b < 8 → (getV u x).getLsbD b = ((getV s x).getLsbD b && (getV s y).getLsbD b)) ∧
    (∀ b, b < 8 → (getV v x).getLsbD b = ((getV s x).getLsbD b ^^ (getV s y).getLsbD b)) ∧
    SameRegsBut [x] s t ∧ SameRegsBut [x] s u ∧ SameRegsBut [x] s v ∧
    SameBut [.V] s t ∧ SameBut [.V] s u ∧ SameBut [.V] s v

/-- R166: 8xy4 sets V[x] to the sum modulo 256 and VF to 1 exactly when the exact sum is above 255, else to 0; with
x = 15 the flag stands. No other register and nothing else changes. -/
def Obligations.AddSetsCarry : Prop := ∀ (x y : Reg) (s : State),
  EncodedAs (.addReg x y) 0xF00F 0x8004 ∧
  SetsRegThenFlag (exec (.addReg x y) s) s x (((getV s x).toNat + (getV s y).toNat) % 256)
    (if (getV s x).toNat + (getV s y).toNat > 255 then 1 else 0)

/-- R167, R169: 8xy5 sets V[x] to V[x] - V[y], 8xy7 to V[y] - V[x], modulo 256, and VF to 1 exactly when the first
operand of the difference is strictly greater, else to 0; with x = 15 the flag stands. No other register and nothing
else changes. -/
def Obligations.SubtractionsSetNoBorrow : Prop := ∀ (x y : Reg) (s : State),
  EncodedAs (.subReg x y) 0xF00F 0x8005 ∧ EncodedAs (.subnReg x y) 0xF00F 0x8007 ∧
  SetsRegThenFlag (exec (.subReg x y) s) s x ((256 + (getV s x).toNat - (getV s y).toNat) % 256)
    (if (getV s x).toNat > (getV s y).toNat then 1 else 0) ∧
  SetsRegThenFlag (exec (.subnReg x y) s) s x ((256 + (getV s y).toNat - (getV s x).toNat) % 256)
    (if (getV s y).toNat > (getV s x).toNat then 1 else 0)

/-- 8xy6 halves V[x] and puts its bit 0 in VF; 8xyE doubles it modulo 256 and puts its bit 7 in VF; the y field does
nothing. With x = 15 the shifted value stands, which is the spec's decision D13 (42_load_alu.md sections 1 and 5, log
entry 10). No other register and nothing else changes. -/
def Obligations.ShiftsMoveOneBitIntoVF : Prop := ∀ (x y : Reg) (s : State),
  ∃ t u, exec (.shr x y) s = .next t ∧ exec (.shl x y) s = .next u ∧
    (getV t x).toNat = (getV s x).toNat / 2 ∧ (getV u x).toNat = (getV s x).toNat * 2 % 256 ∧
    (x ≠ VF → (getV t VF).toNat = (getV s x).toNat % 2 ∧ (getV u VF).toNat = (getV s x).toNat / 128) ∧
    SameRegsBut [x, VF] s t ∧ SameRegsBut [x, VF] s u ∧ SameBut [.V] s t ∧ SameBut [.V] s u

/-- Cxkk sets V[x] to the step's random byte ANDed with kk, for every value of that byte: no bit outside kk is set
(42_load_alu.md section 6; the byte is a free input, the spec's decision D17, held in the field `rnd`, log entry 1). -/
def Obligations.RandomIsMasked : Prop := ∀ (x : Reg) (kk : Byte) (s : State),
  ∃ t, exec (.rnd x kk) s = .next t ∧
    (∀ b, b < 8 → (getV t x).getLsbD b = (s.rnd.getLsbD b && kk.getLsbD b)) ∧
    SameRegsBut [x] s t ∧ SameBut [.V] s t

/-! ### Index register and memory -/

/-- R180, R182: Annn sets I to nnn; Fx29 sets I to 5 times the whole byte V[x]. Nothing else changes. -/
def Obligations.IndexLoads : Prop := ∀ (nnn : Addr) (x : Reg) (s : State),
  EncodedAs (.ldI nnn) 0xF000 0xA000 ∧ EncodedAs (.ldF x) 0xF0FF 0xF029 ∧
  ∃ t u, exec (.ldI nnn) s = .next t ∧ exec (.ldF x) s = .next u ∧
    t.I.toNat = nnn.toNat ∧ u.I.toNat = 5 * (getV s x).toNat ∧ SameBut [.I] s t ∧ SameBut [.I] s u

/-- Fx1E adds V[x] to I modulo 65536 and writes no flag; nothing else changes (43_index_memory.md, Fx1E; the modulus is
the spec's decision D12, log entry 9). -/
def Obligations.IndexAddWraps : Prop := ∀ (x : Reg) (s : State),
  ∃ t, exec (.addI x) s = .next t ∧ t.I.toNat = (s.I.toNat + (getV s x).toNat) % 65536 ∧ SameBut [.I] s t

/-- R183: Fx33 stores the hundreds, tens and ones of V[x] at I, I + 1, I + 2 and changes no other byte and nothing
else; where those addresses leave memory it raises `BoundsError` of the first that does. -/
def Obligations.BcdStoresThreeDigits : Prop := ∀ (x : Reg) (s : State),
  EncodedAs (.ldB x) 0xF0FF 0xF033 ∧
  (s.I.toNat + 2 ≤ 0xFFF → ∃ t, exec (.ldB x) s = .next t ∧
    (Memory.get t.mem (indexAddr s)).toNat = (getV s x).toNat / 100 ∧
    (Memory.get t.mem (indexAddr s + 1)).toNat = (getV s x).toNat / 10 % 10 ∧
    (Memory.get t.mem (indexAddr s + 2)).toNat = (getV s x).toNat % 10 ∧
    SameBytesBut (indexAddr s) 3 s t ∧ SameBut [.mem] s t) ∧
  (0xFFF < s.I.toNat + 2 → exec (.ldB x) s = .fault (.boundsError (firstOffence s.I.toNat)))

/-- Fx55 stores V0 to V[x] at I, I + 1, ... and changes no other byte and nothing else, I among them; where the range
leaves memory it raises (43_index_memory.md, Fx55; that I is unchanged is the spec's decision D15, log entry 11). -/
def Obligations.RegistersStored : Prop := ∀ (x : Reg) (s : State),
  (s.I.toNat + x.toNat ≤ 0xFFF → ∃ t, exec (.storeRegs x) s = .next t ∧
    (∀ q : Reg, q.toNat ≤ x.toNat → Memory.get t.mem (indexAddr s + q.toNat) = getV s q) ∧
    SameBytesBut (indexAddr s) (x.toNat + 1) s t ∧ SameBut [.mem] s t) ∧
  (0xFFF < s.I.toNat + x.toNat → exec (.storeRegs x) s = .fault (.boundsError (firstOffence s.I.toNat)))

/-- Fx65 loads V0 to V[x] from I, I + 1, ... and changes no other register and nothing else, I among them; where the
range leaves memory it raises (43_index_memory.md, Fx65; the error is the spec's decision D3, log entry 3, and that I
is unchanged its D15, log entry 11). -/
def Obligations.RegistersLoaded : Prop := ∀ (x : Reg) (s : State),
  (s.I.toNat + x.toNat ≤ 0xFFF → ∃ t, exec (.loadRegs x) s = .next t ∧
    (∀ q : Reg, q.toNat ≤ x.toNat → getV t q = Memory.get s.mem (indexAddr s + q.toNat)) ∧
    (∀ q : Reg, x.toNat < q.toNat → getV t q = getV s q) ∧ SameBut [.V] s t) ∧
  (0xFFF < s.I.toNat + x.toNat → exec (.loadRegs x) s = .fault (.boundsError (firstOffence s.I.toNat)))

/-- "`Fx55` then `Fx65` for the same x and I round-trips registers V0..Vx exactly" (43_index_memory.md, Fx55), whatever
the registers and the rest of the state hold when the load runs. -/
def Obligations.StoreThenLoadRoundTrips : Prop := ∀ (x : Reg) (s t u : State), exec (.storeRegs x) s = .next t →
  u.mem = t.mem → u.I = t.I →
  ∃ w, exec (.loadRegs x) u = .next w ∧ ∀ q : Reg, q.toNat ≤ x.toNat → getV w q = getV s q

/-! ### Display -/

/-- R202: 00E0 clears every pixel and raises dirty; nothing else changes. -/
def Obligations.ClearBlanksTheDisplay : Prop := ∀ s : State,
  EncodedAs .cls 0xFFFF 0x00E0 ∧ ∃ t, exec .cls s = .next t ∧
  (∀ x y, pixel t x y = false) ∧ t.dirty = true ∧ SameBut [.fb, .dirty] s t

/-- Dxyn toggles exactly the pixels its n rows cover, both coordinates wrapping, sets VF to 1 exactly when some pixel
went from set to unset, else to 0, and raises dirty, also with n = 0; no other register and nothing else changes. Where
a row lies outside memory it raises (44_display.md section 2; the error is the spec's decision D3, log entry 3). -/
def Obligations.SpriteDrawn : Prop := ∀ (x y : Reg) (n : Rows) (s : State),
  (n.toNat = 0 ∨ s.I.toNat + n.toNat - 1 ≤ 0xFFF → ∃ t, exec (.drw x y n) s = .next t ∧
    (∀ c r, pixel t c r = (pixel s c r ^^ spriteCovers (fun k => Memory.get s.mem (indexAddr s + k)) n.toNat
      (getV s x).toNat (getV s y).toNat c.toNat r.toNat)) ∧
    ((∃ c r, pixel s c r = true ∧ pixel t c r = false) → getV t VF = 1) ∧
    ((¬ ∃ c r, pixel s c r = true ∧ pixel t c r = false) → getV t VF = 0) ∧
    t.dirty = true ∧ SameRegsBut [VF] s t ∧ SameBut [.V, .fb, .dirty] s t) ∧
  (1 ≤ n.toNat → 0xFFF < s.I.toNat + n.toNat - 1 →
    exec (.drw x y n) s = .fault (.boundsError (firstOffence s.I.toNat)))

/-- Drawing the same sprite twice at the same coordinates, with no draw between, restores the display, and the second
draw reports a collision if the first set any pixel (44_display.md sections 2 and 3, derived there). -/
def Obligations.DrawTwiceRestoresTheDisplay : Prop := ∀ (x y : Reg) (n : Rows) (s t u : State),
  exec (.drw x y n) s = .next t → u.fb = t.fb → u.mem = t.mem → u.I = t.I →
  getV u x = getV s x → getV u y = getV s y →
  ∃ w, exec (.drw x y n) u = .next w ∧ w.fb = s.fb ∧
    ((∃ c r, pixel s c r = false ∧ pixel t c r = true) → getV w VF = 1)

/-- Drawn onto a clear display, a sprite sets as many pixels as its bytes have 1 bits: wrapping loses none
(44_display.md section 3, derived there). -/
def Obligations.DrawOnClearDisplayCountsSpriteBits : Prop := ∀ (x y : Reg) (n : Rows) (s t : State),
  (∀ c r, pixel s c r = false) → exec (.drw x y n) s = .next t →
  litPixels t.fb = ((List.range n.toNat).map fun k => bitCount (Memory.get s.mem (indexAddr s + k))).sum

/-! ### Keys and timers -/

/-- Ex9E ends its step at pc + 4 when the latched key equals V[x] in all 8 bits, and at pc + 2 when it differs or no
key is latched; ExA1 exactly the other way round; nothing else changes, the latch among it (45_keys_timers.md section
1; the empty latch is the spec's decision D10, log entry 8). -/
def Obligations.SkipsOnKey : Prop := ∀ (x : Reg) (s : State),
  ∃ t u, exec (.skp x) s = .next t ∧ exec (.sknp x) s = .next u ∧
    ((∃ k, s.key = some k ∧ k.toNat = (getV s x).toNat) →
      (finishStep (.skp x) t).pc = s.pc + 4 ∧ (finishStep (.sknp x) u).pc = s.pc + 2) ∧
    ((¬ ∃ k, s.key = some k ∧ k.toNat = (getV s x).toNat) →
      (finishStep (.skp x) t).pc = s.pc + 2 ∧ (finishStep (.sknp x) u).pc = s.pc + 4) ∧
    SameBut [.pc] s t ∧ SameBut [.pc] s u

/-- Fx0A enters WaitingForKey(x) and does nothing else, with a key latched or not; its step ticks the timers and ends
at pc + 2 (45_keys_timers.md section 2). -/
def Obligations.KeyWaitEntered : Prop := ∀ (x : Reg) (s : State), ∃ t, exec (.ldVxK x) s = .next t ∧
  t.execState = .waitingForKey x ∧ SameBut [.execState] s t ∧ (finishStep (.ldVxK x) t).pc = s.pc + 2 ∧
  (finishStep (.ldVxK x) t).DT.toNat = s.DT.toNat - 1 ∧ (finishStep (.ldVxK x) t).ST.toNat = s.ST.toNat - 1

/-- R223, R224, R225: Fx07 reads DT as it was before the step's tick; Fx15 and Fx18 set DT and ST to V[x], and the tick
of the same step leaves V[x] - 1, or 0 when V[x] = 0. No other register and nothing else changes. -/
def Obligations.TimerAccess : Prop := ∀ (x : Reg) (s : State),
  EncodedAs (.ldVxDT x) 0xF0FF 0xF007 ∧ EncodedAs (.ldDTVx x) 0xF0FF 0xF015 ∧ EncodedAs (.ldSTVx x) 0xF0FF 0xF018 ∧
  SetsReg (exec (.ldVxDT x) s) s x s.DT.toNat ∧
  ∃ t u, exec (.ldDTVx x) s = .next t ∧ exec (.ldSTVx x) s = .next u ∧
    t.DT = getV s x ∧ (finishStep (.ldDTVx x) t).DT.toNat = (getV s x).toNat - 1 ∧
    u.ST = getV s x ∧ (finishStep (.ldSTVx x) u).ST.toNat = (getV s x).toNat - 1 ∧
    SameBut [.DT] s t ∧ SameBut [.ST] s u
end

