-- ==== Sys2Proof/Laws/Decode.lean ====
section
/-! SUPPORT. The fields of the encoder's formats, and the bytes of a word. -/

namespace Sys2Proof

/-- A field above the lower part of a concatenation is a field of the upper part. -/
theorem extract_upper {n m : Nat} (a : BitVec n) (b : BitVec m) (k w : Nat) :
    (a ++ b).extractLsb' (m + k) w = a.extractLsb' k w := by
  ext i hi
  rw [BitVec.getElem_extractLsb', BitVec.getElem_extractLsb', BitVec.getLsbD_append,
    if_neg (by omega), show m + k + i - m = k + i by omega]

/-- A field inside the lower part of a concatenation is a field of the lower part. -/
theorem extract_lower {n m : Nat} (a : BitVec n) (b : BitVec m) {k w : Nat} (h : k + w ≤ m) :
    (a ++ b).extractLsb' k w = b.extractLsb' k w := by
  ext i hi
  rw [BitVec.getElem_extractLsb', BitVec.getElem_extractLsb', BitVec.getLsbD_append, if_pos (by omega)]

theorem extract_all {n : Nat} (a : BitVec n) : a.extractLsb' 0 n = a := by
  ext i hi; simp

@[simp] theorem fieldOp_formatA (op : BitVec 4) (a : Addr) : fieldOp (formatA op a) = op :=
  (extract_upper op a 0 4).trans (extract_all op)

@[simp] theorem fieldNnn_formatA (op : BitVec 4) (a : Addr) : fieldNnn (formatA op a) = a :=
  (extract_lower op a (by omega)).trans (extract_all a)

@[simp] theorem fieldOp_formatXK (op : BitVec 4) (x : Reg) (kk : Byte) : fieldOp (formatXK op x kk) = op :=
  (extract_upper (op ++ x : BitVec 8) kk 4 4).trans ((extract_upper op x 0 4).trans (extract_all op))

@[simp] theorem fieldX_formatXK (op : BitVec 4) (x : Reg) (kk : Byte) : fieldX (formatXK op x kk) = x :=
  (extract_upper (op ++ x : BitVec 8) kk 0 4).trans ((extract_lower op x (by omega)).trans (extract_all x))

@[simp] theorem fieldKk_formatXK (op : BitVec 4) (x : Reg) (kk : Byte) : fieldKk (formatXK op x kk) = kk :=
  (extract_lower (op ++ x : BitVec 8) kk (by omega)).trans (extract_all kk)

@[simp] theorem fieldOp_formatXYN (op : BitVec 4) (x y : Reg) (n : BitVec 4) :
    fieldOp (formatXYN op x y n) = op :=
  (extract_upper (op ++ x : BitVec 8) (y ++ n : BitVec 8) 4 4).trans
    ((extract_upper op x 0 4).trans (extract_all op))

@[simp] theorem fieldX_formatXYN (op : BitVec 4) (x y : Reg) (n : BitVec 4) : fieldX (formatXYN op x y n) = x :=
  (extract_upper (op ++ x : BitVec 8) (y ++ n : BitVec 8) 0 4).trans
    ((extract_lower op x (by omega)).trans (extract_all x))

@[simp] theorem fieldY_formatXYN (op : BitVec 4) (x y : Reg) (n : BitVec 4) : fieldY (formatXYN op x y n) = y :=
  (extract_lower (op ++ x : BitVec 8) (y ++ n : BitVec 8) (by omega)).trans
    ((extract_upper y n 0 4).trans (extract_all y))

@[simp] theorem fieldN_formatXYN (op : BitVec 4) (x y : Reg) (n : BitVec 4) : fieldN (formatXYN op x y n) = n :=
  (extract_lower (op ++ x : BitVec 8) (y ++ n : BitVec 8) (by omega)).trans
    ((extract_lower y n (by omega)).trans (extract_all n))

/-- The two bytes of a word give the word back (spec/20_memory.md R65). -/
@[simp] theorem wordOfBytes_bytes (w : Word) : wordOfBytes (highByte w) (lowByte w) = w := by
  apply BitVec.eq_of_getLsbD_eq
  intro i hi
  refine (BitVec.getLsbD_append (x := highByte w) (y := lowByte w) (i := i)).trans ?_
  simp only [highByte, lowByte, BitVec.getLsbD_extractLsb']
  split
  · rename_i h; simp [h]
  · rename_i h; simp [show i - 8 < 8 by omega, show 8 + (i - 8) = i by omega]

@[simp] theorem highByte_wordOfBytes (hi lo : Byte) : highByte (wordOfBytes hi lo) = hi :=
  (extract_upper hi lo 0 8).trans (extract_all hi)

@[simp] theorem lowByte_wordOfBytes (hi lo : Byte) : lowByte (wordOfBytes hi lo) = lo :=
  (extract_lower hi lo (by omega)).trans (extract_all lo)

/-- The table word of an in-range number, through the decoder's bytes, is the word itself. -/
theorem decodeTableWord_eq (nbits w : Nat) :
    decodeTableWord nbits w = (decode (tableWord nbits w)).toOption := by
  simp only [decodeTableWord, decodeBytes, wordOfBytes_bytes]
  cases decode (tableWord nbits w) <;> rfl

/-! ### A word as its four nibbles, and the three masks of the opcode map -/

/-- Concatenating a field with the field below it gives the wider field. -/
theorem extract_append_extract {n : Nat} (w : BitVec n) (k a b : Nat) :
    (w.extractLsb' (k + b) a ++ w.extractLsb' k b) = w.extractLsb' k (a + b) := by
  apply BitVec.eq_of_getLsbD_eq
  intro i hi
  rw [BitVec.getLsbD_append, BitVec.getLsbD_extractLsb', BitVec.getLsbD_extractLsb', BitVec.getLsbD_extractLsb']
  rcases Nat.lt_or_ge i b with h | h
  · simp [h, show i < a + b by omega]
  · simp [Nat.not_lt.2 h, show i - b < a by omega, show i < a + b by omega, show k + b + (i - b) = k + i by omega]

theorem formatXK_fields (w : Word) : formatXK (fieldOp w) (fieldX w) (fieldKk w) = w := by
  have h1 : (fieldOp w ++ fieldX w : BitVec 8) = w.extractLsb' 8 8 := extract_append_extract w 8 4 4
  unfold formatXK
  rw [h1]
  exact (extract_append_extract w 0 8 8).trans (extract_all w)

theorem fieldKk_eq (w : Word) : (fieldY w ++ fieldN w : BitVec 8) = fieldKk w := extract_append_extract w 0 4 4

theorem formatXYN_fields (w : Word) : formatXYN (fieldOp w) (fieldX w) (fieldY w) (fieldN w) = w := by
  have := formatXK_fields w
  rwa [← fieldKk_eq] at this

theorem formatA_fields (w : Word) : formatA (fieldOp w) (fieldNnn w) = w :=
  (extract_append_extract w 0 4 12).trans (extract_all w)

theorem append_and_append {n m : Nat} (a a' : BitVec n) (b b' : BitVec m) :
    (a ++ b) &&& (a' ++ b') = (a &&& a') ++ (b &&& b') := by
  apply BitVec.eq_of_getLsbD_eq
  intro i hi
  simp only [BitVec.getLsbD_and, BitVec.getLsbD_append]
  split <;> rfl

theorem formatXK_and (op op' : BitVec 4) (x x' : Reg) (kk kk' : Byte) :
    formatXK op x kk &&& formatXK op' x' kk' = formatXK (op &&& op') (x &&& x') (kk &&& kk') := by
  refine (append_and_append (op ++ x : BitVec 8) (op' ++ x' : BitVec 8) kk kk').trans ?_
  have h : (op ++ x : BitVec 8) &&& (op' ++ x' : BitVec 8) = ((op &&& op') ++ (x &&& x') : BitVec 8) :=
    append_and_append op op' x x'
  unfold formatXK
  rw [h]

theorem formatXYN_and (op op' : BitVec 4) (x x' y y' : Reg) (n n' : BitVec 4) :
    formatXYN op x y n &&& formatXYN op' x' y' n' =
      formatXYN (op &&& op') (x &&& x') (y &&& y') (n &&& n') := by
  have h := formatXK_and op op' x x' (y ++ n : BitVec 8) (y' ++ n' : BitVec 8)
  have h2 : (y ++ n : BitVec 8) &&& (y' ++ n' : BitVec 8) = ((y &&& y') ++ (n &&& n') : BitVec 8) :=
    append_and_append y y' n n'
  rw [h2] at h
  exact h

/-- The mask of formats A, XK and XYN compares `op`. -/
theorem and_F000_iff (w : Word) (p : BitVec 4) : w &&& 0xF000 = formatXK p 0 0 ↔ fieldOp w = p := by
  have h : w &&& 0xF000 = formatXK (fieldOp w) 0 0 := by
    have := formatXK_and (fieldOp w) 0xF (fieldX w) 0 (fieldKk w) 0
    rw [formatXK_fields, show formatXK 0xF 0 0 = (0xF000 : Word) from rfl] at this
    rw [this]
    congr 1
    · exact BitVec.and_allOnes
    · exact BitVec.and_zero
    · exact BitVec.and_zero
  rw [h]
  exact ⟨fun e => by simpa using congrArg fieldOp e, fun e => by rw [e]⟩

/-- The mask of format XY compares `op` and `n`. -/
theorem and_F00F_iff (w : Word) (p q : BitVec 4) :
    w &&& 0xF00F = formatXYN p 0 0 q ↔ fieldOp w = p ∧ fieldN w = q := by
  have h : w &&& 0xF00F = formatXYN (fieldOp w) 0 0 (fieldN w) := by
    have := formatXYN_and (fieldOp w) 0xF (fieldX w) 0 (fieldY w) 0 (fieldN w) 0xF
    rw [formatXYN_fields, show formatXYN 0xF 0 0 0xF = (0xF00F : Word) from rfl] at this
    rw [this]
    congr 1
    · exact BitVec.and_allOnes
    · exact BitVec.and_zero
    · exact BitVec.and_zero
    · exact BitVec.and_allOnes
  rw [h]
  exact ⟨fun e => ⟨by simpa using congrArg fieldOp e, by simpa using congrArg fieldN e⟩,
    fun e => by rw [e.1, e.2]⟩

/-- The mask of format XF compares `op` and `kk`. -/
theorem and_F0FF_iff (w : Word) (p : BitVec 4) (q : Byte) :
    w &&& 0xF0FF = formatXK p 0 q ↔ fieldOp w = p ∧ fieldKk w = q := by
  have h : w &&& 0xF0FF = formatXK (fieldOp w) 0 (fieldKk w) := by
    have := formatXK_and (fieldOp w) 0xF (fieldX w) 0 (fieldKk w) 0xFF
    rw [formatXK_fields, show formatXK 0xF 0 0xFF = (0xF0FF : Word) from rfl] at this
    rw [this]
    congr 1
    · exact BitVec.and_allOnes
    · exact BitVec.and_zero
    · exact BitVec.and_allOnes
  rw [h]
  exact ⟨fun e => ⟨by simpa using congrArg fieldOp e, by simpa using congrArg fieldKk e⟩,
    fun e => by rw [e.1, e.2]⟩

/-- Matching a row of the opcode map, in fields. -/
theorem matches_F000 (w : Word) (p : BitVec 4) {pattern : Word} (h : pattern = formatXK p 0 0) :
    OpcodeRow.matchesWord ⟨0xF000, pattern⟩ w = decide (fieldOp w = p) := by
  subst h
  rw [Bool.eq_iff_iff, decide_eq_true_eq, ← and_F000_iff]
  simp [OpcodeRow.matchesWord]

theorem matches_F00F (w : Word) (p q : BitVec 4) {pattern : Word} (h : pattern = formatXYN p 0 0 q) :
    OpcodeRow.matchesWord ⟨0xF00F, pattern⟩ w = decide (fieldOp w = p ∧ fieldN w = q) := by
  subst h
  rw [Bool.eq_iff_iff, decide_eq_true_eq, ← and_F00F_iff]
  simp [OpcodeRow.matchesWord]

theorem matches_F0FF (w : Word) (p : BitVec 4) (q : Byte) {pattern : Word} (h : pattern = formatXK p 0 q) :
    OpcodeRow.matchesWord ⟨0xF0FF, pattern⟩ w = decide (fieldOp w = p ∧ fieldKk w = q) := by
  subst h
  rw [Bool.eq_iff_iff, decide_eq_true_eq, ← and_F0FF_iff]
  simp [OpcodeRow.matchesWord]

theorem matches_FFFF (w pattern : Word) : OpcodeRow.matchesWord ⟨0xFFFF, pattern⟩ w = decide (w = pattern) := by
  have h : w &&& 0xFFFF = w := BitVec.and_allOnes
  simp only [OpcodeRow.matchesWord, h]
  rfl

/-! ### Legal words, in fields: the opcode map of spec/30_encoding.md R95 read row by row -/

theorem rowsControl_iff (w : Word) : (WellFormed.rowsControl.any fun r => r.matchesWord w) = true ↔
    (w = 0x00E0 ∨ w = 0x00EE ∨ fieldOp w = 1 ∨ fieldOp w = 2 ∨ fieldOp w = 3 ∨ fieldOp w = 4 ∨
      (fieldOp w = 5 ∧ fieldN w = 0) ∨ fieldOp w = 6 ∨ fieldOp w = 7) := by
  simp only [WellFormed.rowsControl, List.any_cons, List.any_nil, Bool.or_false, Bool.or_eq_true, decide_eq_true_eq,
    matches_FFFF,
    matches_F000 w 0x1 (show (0x1000 : Word) = _ from rfl),
    matches_F000 w 0x2 (show (0x2000 : Word) = _ from rfl),
    matches_F000 w 0x3 (show (0x3000 : Word) = _ from rfl),
    matches_F000 w 0x4 (show (0x4000 : Word) = _ from rfl),
    matches_F000 w 0x6 (show (0x6000 : Word) = _ from rfl),
    matches_F000 w 0x7 (show (0x7000 : Word) = _ from rfl),
    matches_F00F w 0x5 0x0 (show (0x5000 : Word) = _ from rfl)]

theorem rowsAlu_iff (w : Word) : (WellFormed.rowsAlu.any fun r => r.matchesWord w) = true ↔
    (fieldOp w = 8 ∧ (fieldN w = 0 ∨ fieldN w = 1 ∨ fieldN w = 2 ∨ fieldN w = 3 ∨ fieldN w = 4 ∨ fieldN w = 5 ∨
      fieldN w = 6 ∨ fieldN w = 7 ∨ fieldN w = 0xE)) := by
  simp only [WellFormed.rowsAlu, List.any_cons, List.any_nil, Bool.or_false, Bool.or_eq_true, decide_eq_true_eq,
    matches_F00F w 0x8 0x0 (show (0x8000 : Word) = _ from rfl),
    matches_F00F w 0x8 0x1 (show (0x8001 : Word) = _ from rfl),
    matches_F00F w 0x8 0x2 (show (0x8002 : Word) = _ from rfl),
    matches_F00F w 0x8 0x3 (show (0x8003 : Word) = _ from rfl),
    matches_F00F w 0x8 0x4 (show (0x8004 : Word) = _ from rfl),
    matches_F00F w 0x8 0x5 (show (0x8005 : Word) = _ from rfl),
    matches_F00F w 0x8 0x6 (show (0x8006 : Word) = _ from rfl),
    matches_F00F w 0x8 0x7 (show (0x8007 : Word) = _ from rfl),
    matches_F00F w 0x8 0xE (show (0x800E : Word) = _ from rfl),
    ← and_or_left]

theorem rowsMid_iff (w : Word) : (WellFormed.rowsMid.any fun r => r.matchesWord w) = true ↔
    ((fieldOp w = 9 ∧ fieldN w = 0) ∨ fieldOp w = 0xA ∨ fieldOp w = 0xB ∨ fieldOp w = 0xC ∨ fieldOp w = 0xD) := by
  simp only [WellFormed.rowsMid, List.any_cons, List.any_nil, Bool.or_false, Bool.or_eq_true, decide_eq_true_eq,
    matches_F00F w 0x9 0x0 (show (0x9000 : Word) = _ from rfl),
    matches_F000 w 0xA (show (0xA000 : Word) = _ from rfl),
    matches_F000 w 0xB (show (0xB000 : Word) = _ from rfl),
    matches_F000 w 0xC (show (0xC000 : Word) = _ from rfl),
    matches_F000 w 0xD (show (0xD000 : Word) = _ from rfl)]

theorem rowsSystem_iff (w : Word) : (WellFormed.rowsSystem.any fun r => r.matchesWord w) = true ↔
    ((fieldOp w = 0xE ∧ fieldKk w = 0x9E) ∨ (fieldOp w = 0xE ∧ fieldKk w = 0xA1) ∨
      (fieldOp w = 0xF ∧ (fieldKk w = 0x07 ∨ fieldKk w = 0x0A ∨ fieldKk w = 0x15 ∨ fieldKk w = 0x18 ∨
        fieldKk w = 0x1E ∨ fieldKk w = 0x29 ∨ fieldKk w = 0x33 ∨ fieldKk w = 0x55 ∨ fieldKk w = 0x65))) := by
  simp only [WellFormed.rowsSystem, List.any_cons, List.any_nil, Bool.or_false, Bool.or_eq_true, decide_eq_true_eq,
    matches_F0FF w 0xE 0x9E (show (0xE09E : Word) = _ from rfl),
    matches_F0FF w 0xE 0xA1 (show (0xE0A1 : Word) = _ from rfl),
    matches_F0FF w 0xF 0x07 (show (0xF007 : Word) = _ from rfl),
    matches_F0FF w 0xF 0x0A (show (0xF00A : Word) = _ from rfl),
    matches_F0FF w 0xF 0x15 (show (0xF015 : Word) = _ from rfl),
    matches_F0FF w 0xF 0x18 (show (0xF018 : Word) = _ from rfl),
    matches_F0FF w 0xF 0x1E (show (0xF01E : Word) = _ from rfl),
    matches_F0FF w 0xF 0x29 (show (0xF029 : Word) = _ from rfl),
    matches_F0FF w 0xF 0x33 (show (0xF033 : Word) = _ from rfl),
    matches_F0FF w 0xF 0x55 (show (0xF055 : Word) = _ from rfl),
    matches_F0FF w 0xF 0x65 (show (0xF065 : Word) = _ from rfl),
    and_or_left]

/-- A legal word, in fields. -/
theorem word_legal_iff (w : Word) : WellFormed.word w = true ↔
    (w = 0x00E0 ∨ w = 0x00EE ∨ fieldOp w = 1 ∨ fieldOp w = 2 ∨ fieldOp w = 3 ∨ fieldOp w = 4 ∨
      (fieldOp w = 5 ∧ fieldN w = 0) ∨ fieldOp w = 6 ∨ fieldOp w = 7) ∨
    (fieldOp w = 8 ∧ (fieldN w = 0 ∨ fieldN w = 1 ∨ fieldN w = 2 ∨ fieldN w = 3 ∨ fieldN w = 4 ∨ fieldN w = 5 ∨
      fieldN w = 6 ∨ fieldN w = 7 ∨ fieldN w = 0xE)) ∨
    ((fieldOp w = 9 ∧ fieldN w = 0) ∨ fieldOp w = 0xA ∨ fieldOp w = 0xB ∨ fieldOp w = 0xC ∨ fieldOp w = 0xD) ∨
    ((fieldOp w = 0xE ∧ fieldKk w = 0x9E) ∨ (fieldOp w = 0xE ∧ fieldKk w = 0xA1) ∨
      (fieldOp w = 0xF ∧ (fieldKk w = 0x07 ∨ fieldKk w = 0x0A ∨ fieldKk w = 0x15 ∨ fieldKk w = 0x18 ∨
        fieldKk w = 0x1E ∨ fieldKk w = 0x29 ∨ fieldKk w = 0x33 ∨ fieldKk w = 0x55 ∨ fieldKk w = 0x65))) := by
  simp only [WellFormed.word, WellFormed.opcodeMap, List.any_append, Bool.or_eq_true, rowsControl_iff, rowsAlu_iff,
    rowsMid_iff, rowsSystem_iff, or_assoc]

end Sys2Proof
end

