-- ==== Sys2Proof/Laws/Memory.lean ====
section
/-! SUPPORT. What memory operations do: read after write, the other addresses, the canonical form, and when an access
is out of range. -/

namespace Sys2Proof.Machine

/-! ### Reading after erasing, inserting, setting -/

theorem Memory.get_erase (m : List Host.Cell) (a b : Nat) :
    Memory.get (Memory.erase m a) b = if b = a then resetByte a else Memory.get m b := by
  induction m with
  | nil => by_cases h : b = a <;> simp [Memory.erase, Memory.get, h]
  | cons c m ih =>
    obtain ⟨d, v⟩ := c
    by_cases hd : d = a
    · subst hd
      by_cases hb : b = d
      · subst hb; simpa [Memory.erase] using ih
      · simp [Memory.erase, Memory.get, ih, hb, Ne.symm hb]
    · by_cases hb : b = a
      · subst hb; simp [Memory.erase, Memory.get, ih, hd]
      · simp [Memory.erase, Memory.get, ih, hd, hb]

theorem Memory.not_mem_erase (m : List Host.Cell) (a : Nat) : ∀ c ∈ Memory.erase m a, c.1 ≠ a := by
  induction m with
  | nil => simp [Memory.erase]
  | cons c m ih =>
    obtain ⟨d, v⟩ := c
    by_cases hd : d = a
    · simpa [Memory.erase, hd] using ih
    · simpa [Memory.erase, hd] using ih

theorem Memory.get_insert (m : List Host.Cell) (a b : Nat) (v : Byte) (h : ∀ c ∈ m, c.1 ≠ a) :
    Memory.get (Memory.insert m a v) b = if b = a then v else Memory.get m b := by
  induction m with
  | nil =>
    by_cases hb : b = a
    · simp [Memory.insert, Memory.get, hb]
    · simp [Memory.insert, Memory.get, hb, Ne.symm hb]
  | cons c m ih =>
    obtain ⟨d, w⟩ := c
    have hd : d ≠ a := h (d, w) (by simp)
    have ih := ih fun c hc => h c (by simp [hc])
    by_cases hlt : a < d
    · by_cases hb : b = a
      · simp [Memory.insert, Memory.get, hlt, hb]
      · simp [Memory.insert, Memory.get, hlt, hb, Ne.symm hb]
    · by_cases hb : b = a
      · subst hb; simp [Memory.insert, Memory.get, hlt, hd, ih]
      · simp [Memory.insert, Memory.get, hlt, ih, hb]

/-- The storage law of memory (spec/10_state.md R39): one equation for the same and for every other address. -/
theorem Memory.get_set (m : List Host.Cell) (a b : Nat) (v : Byte) :
    Memory.get (Memory.set m a v) b = if b = a then v else Memory.get m b := by
  unfold Memory.set
  split
  · rename_i h; rw [Memory.get_erase, h]
  · rw [Memory.get_insert _ _ _ _ (Memory.not_mem_erase m a), Memory.get_erase]
    by_cases hb : b = a <;> simp [hb]

@[simp] theorem Memory.get_set_same (m : List Host.Cell) (a : Nat) (v : Byte) :
    Memory.get (Memory.set m a v) a = v := by simp [Memory.get_set]

theorem Memory.get_set_other (m : List Host.Cell) {a b : Nat} (v : Byte) (h : b ≠ a) :
    Memory.get (Memory.set m a v) b = Memory.get m b := by simp [Memory.get_set, h]

/-! ### The canonical form -/

theorem Memory.wfFrom_cons {lo a : Nat} {v : Byte} {m : List Host.Cell} :
    Memory.wfFrom lo ((a, v) :: m) = true ↔
      lo ≤ a ∧ a < Config.memSize ∧ v ≠ resetByte a ∧ Memory.wfFrom (a + 1) m = true := by
  simp [Memory.wfFrom, and_assoc]

theorem Memory.wfFrom_mono {lo lo' : Nat} {m : List Host.Cell} (h : lo' ≤ lo) (w : Memory.wfFrom lo m = true) :
    Memory.wfFrom lo' m = true := by
  cases m with
  | nil => rfl
  | cons c m =>
    obtain ⟨a, v⟩ := c
    rw [Memory.wfFrom_cons] at w ⊢
    exact ⟨by omega, w.2⟩

theorem Memory.wfFrom_erase {m : List Host.Cell} (a : Nat) :
    ∀ {lo}, Memory.wfFrom lo m = true → Memory.wfFrom lo (Memory.erase m a) = true := by
  induction m with
  | nil => intro lo h; exact h
  | cons c m ih =>
    obtain ⟨d, v⟩ := c
    intro lo h
    rw [Memory.wfFrom_cons] at h
    by_cases hd : d = a
    · simp only [Memory.erase, hd, if_true]
      exact Memory.wfFrom_mono (by omega) (ih h.2.2.2)
    · simp only [Memory.erase, hd, if_false]
      rw [Memory.wfFrom_cons]
      exact ⟨h.1, h.2.1, h.2.2.1, ih h.2.2.2⟩

theorem Memory.wfFrom_insert {m : List Host.Cell} {a : Nat} {v : Byte} (ha : a < Config.memSize)
    (hv : v ≠ resetByte a) :
    ∀ {lo}, lo ≤ a → (∀ c ∈ m, c.1 ≠ a) → Memory.wfFrom lo m = true →
      Memory.wfFrom lo (Memory.insert m a v) = true := by
  induction m with
  | nil => intro lo hlo _ _; exact Memory.wfFrom_cons.2 ⟨hlo, ha, hv, rfl⟩
  | cons c m ih =>
    obtain ⟨d, w⟩ := c
    intro lo hlo hne h
    have hd : d ≠ a := hne (d, w) (by simp)
    rw [Memory.wfFrom_cons] at h
    by_cases hlt : a < d
    · simp only [Memory.insert, hlt, if_true]
      exact Memory.wfFrom_cons.2 ⟨hlo, ha, hv, Memory.wfFrom_cons.2 ⟨hlt, h.2⟩⟩
    · simp only [Memory.insert, hlt, if_false]
      exact Memory.wfFrom_cons.2 ⟨h.1, h.2.1, h.2.2.1,
        ih (by omega) (fun c hc => hne c (by simp [hc])) h.2.2.2⟩

/-- A write inside the address space keeps the canonical form. -/
theorem Memory.wf_set {m : List Host.Cell} {a : Nat} {v : Byte} (ha : a < Config.memSize)
    (h : Memory.wf m = true) : Memory.wf (Memory.set m a v) = true := by
  unfold Memory.set
  split
  · exact Memory.wfFrom_erase a h
  · rename_i hv
    exact Memory.wfFrom_insert ha hv (Nat.zero_le _) (Memory.not_mem_erase m a) (Memory.wfFrom_erase a h)

theorem reset_mem_wf : Memory.wf State.reset.mem = true := rfl

/-! ### The access primitives -/

theorem memRead_ok {m : List Host.Cell} {a : Nat} (h : a < 0x1000) : memRead m a = .ok (Memory.get m a) := by
  simp [memRead, h]

theorem memRead_error {m : List Host.Cell} {a : Nat} (h : 0x1000 ≤ a) : memRead m a = .error (boundsAt a) := by
  simp [memRead, Nat.not_lt.2 h]

theorem memWrite_ok {m : List Host.Cell} {a : Nat} {v : Byte} (h : a < 0x1000) :
    memWrite m a v = .ok (Memory.set m a v) := by
  simp [memWrite, h]

theorem memWrite_error {m : List Host.Cell} {a : Nat} {v : Byte} (h : 0x1000 ≤ a) :
    memWrite m a v = .error (boundsAt a) := by
  simp [memWrite, Nat.not_lt.2 h]

/-- Everything a run of writes does when it stays inside the address space. -/
theorem memWriteBytes_ok (bs : List Byte) :
    ∀ (m : List Host.Cell) (addr : Nat), addr + bs.length ≤ 0x1000 →
      ∃ m', memWriteBytes m addr bs = .ok m' ∧
        (∀ k, (h : k < bs.length) → Memory.get m' (addr + k) = bs[k]) ∧
        (∀ a, (a < addr ∨ addr + bs.length ≤ a) → Memory.get m' a = Memory.get m a) ∧
        (Memory.wf m = true → Memory.wf m' = true) := by
  induction bs with
  | nil => intro m addr _; exact ⟨m, rfl, by simp, fun _ _ => rfl, id⟩
  | cons b bs ih =>
    intro m addr h
    simp only [List.length_cons] at h
    obtain ⟨m', he, hin, hout, hwf⟩ := ih (Memory.set m addr b) (addr + 1) (by omega)
    refine ⟨m', ?_, ?_, ?_, fun w => hwf (Memory.wf_set (by simp only [Config.memSize]; omega) w)⟩
    · simp only [memWriteBytes, memWrite_ok (show addr < 0x1000 by omega), he]
    · intro k hk
      cases k with
      | zero => simpa using hout addr (by omega)
      | succ k =>
        have hk' : k < bs.length := by simpa using hk
        have := hin k hk'
        rw [show addr + 1 + k = addr + (k + 1) by omega] at this
        simpa using this
    · intro a ha
      simp only [List.length_cons] at ha
      rw [hout a (by omega), Memory.get_set_other _ _ (by omega)]

/-- A run of writes that leaves the address space raises at its first offending address (spec/20_memory.md R64). -/
theorem memWriteBytes_error (bs : List Byte) :
    ∀ (m : List Host.Cell) (addr : Nat), 0 < bs.length → 0x1000 < addr + bs.length →
      memWriteBytes m addr bs = .error (.boundsError (firstOffence addr)) := by
  induction bs with
  | nil => intro m addr h; simp at h
  | cons b bs ih =>
    intro m addr _ h
    simp only [List.length_cons] at h
    by_cases ha : 0x1000 ≤ addr
    · simp [memWriteBytes, memWrite_error ha, firstOffence, boundsAt, show addr > 0xFFF by omega]
    · have hb : 0 < bs.length := by omega
      simp only [memWriteBytes, memWrite_ok (show addr < 0x1000 by omega)]
      rw [ih _ (addr + 1) hb (by omega)]
      by_cases h2 : addr + 1 > 0xFFF
      · simp [firstOffence, show ¬ addr > 0xFFF by omega, show addr + 1 = 0x1000 by omega]
      · simp [firstOffence, h2, show ¬ addr > 0xFFF by omega]

/-- The fetch of a word inside the address space. -/
theorem memReadWord_ok {m : List Host.Cell} {a : Nat} (h : a + 1 < 0x1000) :
    memReadWord m a = .ok (wordOfBytes (Memory.get m a) (Memory.get m (a + 1))) := by
  simp [memReadWord, memRead_ok h, memRead_ok (show a < 0x1000 by omega)]

/-- The fetch of a word that leaves the address space (spec/40_step_cycle.md R123). -/
theorem memReadWord_error {m : List Host.Cell} {a : Nat} (h : 0x1000 ≤ a + 1) :
    memReadWord m a = .error (.boundsError (firstOffence a)) := by
  by_cases ha : 0x1000 ≤ a
  · simp [memReadWord, memRead_error ha, firstOffence, boundsAt, show a > 0xFFF by omega]
  · have : a = 0xFFF := by omega
    subst this
    simp [memReadWord, memRead_ok, memRead_error, firstOffence, boundsAt]

end Sys2Proof.Machine
end

