-- ==== Sys2Proof/Laws/State.lean ====
section
/-! SUPPORT. One lemma per field per update of `State`, so that no later proof unfolds a record update. -/

namespace Sys2Proof.Machine

/-! ### setV -/

@[simp] theorem setV_V (s : State) (r : Reg) (v : Byte) : (setV s r v).V = s.V.set r.toNat v r.isLt := rfl
@[simp] theorem setV_I (s : State) (r : Reg) (v : Byte) : (setV s r v).I = s.I := rfl
@[simp] theorem setV_pc (s : State) (r : Reg) (v : Byte) : (setV s r v).pc = s.pc := rfl
@[simp] theorem setV_stack (s : State) (r : Reg) (v : Byte) : (setV s r v).stack = s.stack := rfl
@[simp] theorem setV_sp (s : State) (r : Reg) (v : Byte) : (setV s r v).sp = s.sp := rfl
@[simp] theorem setV_DT (s : State) (r : Reg) (v : Byte) : (setV s r v).DT = s.DT := rfl
@[simp] theorem setV_ST (s : State) (r : Reg) (v : Byte) : (setV s r v).ST = s.ST := rfl
@[simp] theorem setV_execState (s : State) (r : Reg) (v : Byte) : (setV s r v).execState = s.execState := rfl
@[simp] theorem setV_dirty (s : State) (r : Reg) (v : Byte) : (setV s r v).dirty = s.dirty := rfl
@[simp] theorem setV_mem (s : State) (r : Reg) (v : Byte) : (setV s r v).mem = s.mem := rfl
@[simp] theorem setV_fb (s : State) (r : Reg) (v : Byte) : (setV s r v).fb = s.fb := rfl
@[simp] theorem setV_fault (s : State) (r : Reg) (v : Byte) : (setV s r v).fault = s.fault := rfl
@[simp] theorem setV_key (s : State) (r : Reg) (v : Byte) : (setV s r v).key = s.key := rfl
@[simp] theorem setV_rnd (s : State) (r : Reg) (v : Byte) : (setV s r v).rnd = s.rnd := rfl
@[simp] theorem setV_hostTick (s : State) (r : Reg) (v : Byte) : (setV s r v).hostTick = s.hostTick := rfl

/-! ### setFlag -/

@[simp] theorem setFlag_V (s : State) (b : Bool) : (setFlag s b).V = s.V.set VF.toNat (flagByte b) VF.isLt := rfl
@[simp] theorem setFlag_I (s : State) (b : Bool) : (setFlag s b).I = s.I := rfl
@[simp] theorem setFlag_pc (s : State) (b : Bool) : (setFlag s b).pc = s.pc := rfl
@[simp] theorem setFlag_stack (s : State) (b : Bool) : (setFlag s b).stack = s.stack := rfl
@[simp] theorem setFlag_sp (s : State) (b : Bool) : (setFlag s b).sp = s.sp := rfl
@[simp] theorem setFlag_DT (s : State) (b : Bool) : (setFlag s b).DT = s.DT := rfl
@[simp] theorem setFlag_ST (s : State) (b : Bool) : (setFlag s b).ST = s.ST := rfl
@[simp] theorem setFlag_execState (s : State) (b : Bool) : (setFlag s b).execState = s.execState := rfl
@[simp] theorem setFlag_dirty (s : State) (b : Bool) : (setFlag s b).dirty = s.dirty := rfl
@[simp] theorem setFlag_mem (s : State) (b : Bool) : (setFlag s b).mem = s.mem := rfl
@[simp] theorem setFlag_fb (s : State) (b : Bool) : (setFlag s b).fb = s.fb := rfl
@[simp] theorem setFlag_fault (s : State) (b : Bool) : (setFlag s b).fault = s.fault := rfl
@[simp] theorem setFlag_key (s : State) (b : Bool) : (setFlag s b).key = s.key := rfl
@[simp] theorem setFlag_rnd (s : State) (b : Bool) : (setFlag s b).rnd = s.rnd := rfl
@[simp] theorem setFlag_hostTick (s : State) (b : Bool) : (setFlag s b).hostTick = s.hostTick := rfl

/-! ### setI -/

@[simp] theorem setI_V (s : State) (w : Word) : (setI s w).V = s.V := rfl
@[simp] theorem setI_I (s : State) (w : Word) : (setI s w).I = w := rfl
@[simp] theorem setI_pc (s : State) (w : Word) : (setI s w).pc = s.pc := rfl
@[simp] theorem setI_stack (s : State) (w : Word) : (setI s w).stack = s.stack := rfl
@[simp] theorem setI_sp (s : State) (w : Word) : (setI s w).sp = s.sp := rfl
@[simp] theorem setI_DT (s : State) (w : Word) : (setI s w).DT = s.DT := rfl
@[simp] theorem setI_ST (s : State) (w : Word) : (setI s w).ST = s.ST := rfl
@[simp] theorem setI_execState (s : State) (w : Word) : (setI s w).execState = s.execState := rfl
@[simp] theorem setI_dirty (s : State) (w : Word) : (setI s w).dirty = s.dirty := rfl
@[simp] theorem setI_mem (s : State) (w : Word) : (setI s w).mem = s.mem := rfl
@[simp] theorem setI_fb (s : State) (w : Word) : (setI s w).fb = s.fb := rfl
@[simp] theorem setI_fault (s : State) (w : Word) : (setI s w).fault = s.fault := rfl
@[simp] theorem setI_key (s : State) (w : Word) : (setI s w).key = s.key := rfl
@[simp] theorem setI_rnd (s : State) (w : Word) : (setI s w).rnd = s.rnd := rfl
@[simp] theorem setI_hostTick (s : State) (w : Word) : (setI s w).hostTick = s.hostTick := rfl

@[simp] theorem getV_setI (s : State) (w : Word) (q : Reg) : getV (setI s w) q = getV s q := by
  simp only [getV, setI_V]

/-! ### setFb -/

@[simp] theorem setFb_V (s : State) (fb : Framebuffer) : (setFb s fb).V = s.V := rfl
@[simp] theorem setFb_I (s : State) (fb : Framebuffer) : (setFb s fb).I = s.I := rfl
@[simp] theorem setFb_pc (s : State) (fb : Framebuffer) : (setFb s fb).pc = s.pc := rfl
@[simp] theorem setFb_stack (s : State) (fb : Framebuffer) : (setFb s fb).stack = s.stack := rfl
@[simp] theorem setFb_sp (s : State) (fb : Framebuffer) : (setFb s fb).sp = s.sp := rfl
@[simp] theorem setFb_DT (s : State) (fb : Framebuffer) : (setFb s fb).DT = s.DT := rfl
@[simp] theorem setFb_ST (s : State) (fb : Framebuffer) : (setFb s fb).ST = s.ST := rfl
@[simp] theorem setFb_execState (s : State) (fb : Framebuffer) : (setFb s fb).execState = s.execState := rfl
@[simp] theorem setFb_dirty (s : State) (fb : Framebuffer) : (setFb s fb).dirty = s.dirty := rfl
@[simp] theorem setFb_mem (s : State) (fb : Framebuffer) : (setFb s fb).mem = s.mem := rfl
@[simp] theorem setFb_fb (s : State) (fb : Framebuffer) : (setFb s fb).fb = fb := rfl
@[simp] theorem setFb_fault (s : State) (fb : Framebuffer) : (setFb s fb).fault = s.fault := rfl
@[simp] theorem setFb_key (s : State) (fb : Framebuffer) : (setFb s fb).key = s.key := rfl
@[simp] theorem setFb_rnd (s : State) (fb : Framebuffer) : (setFb s fb).rnd = s.rnd := rfl
@[simp] theorem setFb_hostTick (s : State) (fb : Framebuffer) : (setFb s fb).hostTick = s.hostTick := rfl

@[simp] theorem getV_setFb (s : State) (fb : Framebuffer) (q : Reg) : getV (setFb s fb) q = getV s q := by
  simp only [getV, setFb_V]

/-! ### clearDisplay -/

@[simp] theorem clearDisplay_V (s : State) : (clearDisplay s).V = s.V := rfl
@[simp] theorem clearDisplay_I (s : State) : (clearDisplay s).I = s.I := rfl
@[simp] theorem clearDisplay_pc (s : State) : (clearDisplay s).pc = s.pc := rfl
@[simp] theorem clearDisplay_stack (s : State) : (clearDisplay s).stack = s.stack := rfl
@[simp] theorem clearDisplay_sp (s : State) : (clearDisplay s).sp = s.sp := rfl
@[simp] theorem clearDisplay_DT (s : State) : (clearDisplay s).DT = s.DT := rfl
@[simp] theorem clearDisplay_ST (s : State) : (clearDisplay s).ST = s.ST := rfl
@[simp] theorem clearDisplay_execState (s : State) : (clearDisplay s).execState = s.execState := rfl
@[simp] theorem clearDisplay_dirty (s : State) : (clearDisplay s).dirty = s.dirty := rfl
@[simp] theorem clearDisplay_mem (s : State) : (clearDisplay s).mem = s.mem := rfl
@[simp] theorem clearDisplay_fb (s : State) : (clearDisplay s).fb = blankFb := rfl
@[simp] theorem clearDisplay_fault (s : State) : (clearDisplay s).fault = s.fault := rfl
@[simp] theorem clearDisplay_key (s : State) : (clearDisplay s).key = s.key := rfl
@[simp] theorem clearDisplay_rnd (s : State) : (clearDisplay s).rnd = s.rnd := rfl
@[simp] theorem clearDisplay_hostTick (s : State) : (clearDisplay s).hostTick = s.hostTick := rfl

@[simp] theorem getV_clearDisplay (s : State) (q : Reg) : getV (clearDisplay s) q = getV s q := by
  simp only [getV, clearDisplay_V]

/-! ### clearDirty -/

@[simp] theorem clearDirty_V (s : State) : (clearDirty s).V = s.V := rfl
@[simp] theorem clearDirty_I (s : State) : (clearDirty s).I = s.I := rfl
@[simp] theorem clearDirty_pc (s : State) : (clearDirty s).pc = s.pc := rfl
@[simp] theorem clearDirty_stack (s : State) : (clearDirty s).stack = s.stack := rfl
@[simp] theorem clearDirty_sp (s : State) : (clearDirty s).sp = s.sp := rfl
@[simp] theorem clearDirty_DT (s : State) : (clearDirty s).DT = s.DT := rfl
@[simp] theorem clearDirty_ST (s : State) : (clearDirty s).ST = s.ST := rfl
@[simp] theorem clearDirty_execState (s : State) : (clearDirty s).execState = s.execState := rfl
@[simp] theorem clearDirty_dirty (s : State) : (clearDirty s).dirty = false := rfl
@[simp] theorem clearDirty_mem (s : State) : (clearDirty s).mem = s.mem := rfl
@[simp] theorem clearDirty_fb (s : State) : (clearDirty s).fb = s.fb := rfl
@[simp] theorem clearDirty_fault (s : State) : (clearDirty s).fault = s.fault := rfl
@[simp] theorem clearDirty_key (s : State) : (clearDirty s).key = s.key := rfl
@[simp] theorem clearDirty_rnd (s : State) : (clearDirty s).rnd = s.rnd := rfl
@[simp] theorem clearDirty_hostTick (s : State) : (clearDirty s).hostTick = s.hostTick := rfl

@[simp] theorem getV_clearDirty (s : State) (q : Reg) : getV (clearDirty s) q = getV s q := by
  simp only [getV, clearDirty_V]

/-! ### raiseDirty -/

@[simp] theorem raiseDirty_V (s : State) : (raiseDirty s).V = s.V := rfl
@[simp] theorem raiseDirty_I (s : State) : (raiseDirty s).I = s.I := rfl
@[simp] theorem raiseDirty_pc (s : State) : (raiseDirty s).pc = s.pc := rfl
@[simp] theorem raiseDirty_stack (s : State) : (raiseDirty s).stack = s.stack := rfl
@[simp] theorem raiseDirty_sp (s : State) : (raiseDirty s).sp = s.sp := rfl
@[simp] theorem raiseDirty_DT (s : State) : (raiseDirty s).DT = s.DT := rfl
@[simp] theorem raiseDirty_ST (s : State) : (raiseDirty s).ST = s.ST := rfl
@[simp] theorem raiseDirty_execState (s : State) : (raiseDirty s).execState = s.execState := rfl
@[simp] theorem raiseDirty_dirty (s : State) : (raiseDirty s).dirty = true := rfl
@[simp] theorem raiseDirty_mem (s : State) : (raiseDirty s).mem = s.mem := rfl
@[simp] theorem raiseDirty_fb (s : State) : (raiseDirty s).fb = s.fb := rfl
@[simp] theorem raiseDirty_fault (s : State) : (raiseDirty s).fault = s.fault := rfl
@[simp] theorem raiseDirty_key (s : State) : (raiseDirty s).key = s.key := rfl
@[simp] theorem raiseDirty_rnd (s : State) : (raiseDirty s).rnd = s.rnd := rfl
@[simp] theorem raiseDirty_hostTick (s : State) : (raiseDirty s).hostTick = s.hostTick := rfl

@[simp] theorem getV_raiseDirty (s : State) (q : Reg) : getV (raiseDirty s) q = getV s q := by
  simp only [getV, raiseDirty_V]

/-! ### addTwo -/

@[simp] theorem addTwo_V (s : State) : (addTwo s).V = s.V := rfl
@[simp] theorem addTwo_I (s : State) : (addTwo s).I = s.I := rfl
@[simp] theorem addTwo_pc (s : State) : (addTwo s).pc = s.pc + 2 := rfl
@[simp] theorem addTwo_stack (s : State) : (addTwo s).stack = s.stack := rfl
@[simp] theorem addTwo_sp (s : State) : (addTwo s).sp = s.sp := rfl
@[simp] theorem addTwo_DT (s : State) : (addTwo s).DT = s.DT := rfl
@[simp] theorem addTwo_ST (s : State) : (addTwo s).ST = s.ST := rfl
@[simp] theorem addTwo_execState (s : State) : (addTwo s).execState = s.execState := rfl
@[simp] theorem addTwo_dirty (s : State) : (addTwo s).dirty = s.dirty := rfl
@[simp] theorem addTwo_mem (s : State) : (addTwo s).mem = s.mem := rfl
@[simp] theorem addTwo_fb (s : State) : (addTwo s).fb = s.fb := rfl
@[simp] theorem addTwo_fault (s : State) : (addTwo s).fault = s.fault := rfl
@[simp] theorem addTwo_key (s : State) : (addTwo s).key = s.key := rfl
@[simp] theorem addTwo_rnd (s : State) : (addTwo s).rnd = s.rnd := rfl
@[simp] theorem addTwo_hostTick (s : State) : (addTwo s).hostTick = s.hostTick := rfl

@[simp] theorem getV_addTwo (s : State) (q : Reg) : getV (addTwo s) q = getV s q := by
  simp only [getV, addTwo_V]

/-! ### skipIf -/

@[simp] theorem skipIf_V (c : Bool) (s : State) : (skipIf c s).V = s.V := by cases c <;> rfl
@[simp] theorem skipIf_I (c : Bool) (s : State) : (skipIf c s).I = s.I := by cases c <;> rfl
@[simp] theorem skipIf_pc (c : Bool) (s : State) : (skipIf c s).pc = if c then s.pc + 2 else s.pc := by cases c <;> rfl
@[simp] theorem skipIf_stack (c : Bool) (s : State) : (skipIf c s).stack = s.stack := by cases c <;> rfl
@[simp] theorem skipIf_sp (c : Bool) (s : State) : (skipIf c s).sp = s.sp := by cases c <;> rfl
@[simp] theorem skipIf_DT (c : Bool) (s : State) : (skipIf c s).DT = s.DT := by cases c <;> rfl
@[simp] theorem skipIf_ST (c : Bool) (s : State) : (skipIf c s).ST = s.ST := by cases c <;> rfl
@[simp] theorem skipIf_execState (c : Bool) (s : State) : (skipIf c s).execState = s.execState := by cases c <;> rfl
@[simp] theorem skipIf_dirty (c : Bool) (s : State) : (skipIf c s).dirty = s.dirty := by cases c <;> rfl
@[simp] theorem skipIf_mem (c : Bool) (s : State) : (skipIf c s).mem = s.mem := by cases c <;> rfl
@[simp] theorem skipIf_fb (c : Bool) (s : State) : (skipIf c s).fb = s.fb := by cases c <;> rfl
@[simp] theorem skipIf_fault (c : Bool) (s : State) : (skipIf c s).fault = s.fault := by cases c <;> rfl
@[simp] theorem skipIf_key (c : Bool) (s : State) : (skipIf c s).key = s.key := by cases c <;> rfl
@[simp] theorem skipIf_rnd (c : Bool) (s : State) : (skipIf c s).rnd = s.rnd := by cases c <;> rfl
@[simp] theorem skipIf_hostTick (c : Bool) (s : State) : (skipIf c s).hostTick = s.hostTick := by cases c <;> rfl

@[simp] theorem getV_skipIf (c : Bool) (s : State) (q : Reg) : getV (skipIf c s) q = getV s q := by
  simp only [getV, skipIf_V]

/-! ### jumpTo -/

@[simp] theorem jumpTo_V (w : Word) (s : State) : (jumpTo w s).V = s.V := rfl
@[simp] theorem jumpTo_I (w : Word) (s : State) : (jumpTo w s).I = s.I := rfl
@[simp] theorem jumpTo_pc (w : Word) (s : State) : (jumpTo w s).pc = w := rfl
@[simp] theorem jumpTo_stack (w : Word) (s : State) : (jumpTo w s).stack = s.stack := rfl
@[simp] theorem jumpTo_sp (w : Word) (s : State) : (jumpTo w s).sp = s.sp := rfl
@[simp] theorem jumpTo_DT (w : Word) (s : State) : (jumpTo w s).DT = s.DT := rfl
@[simp] theorem jumpTo_ST (w : Word) (s : State) : (jumpTo w s).ST = s.ST := rfl
@[simp] theorem jumpTo_execState (w : Word) (s : State) : (jumpTo w s).execState = s.execState := rfl
@[simp] theorem jumpTo_dirty (w : Word) (s : State) : (jumpTo w s).dirty = s.dirty := rfl
@[simp] theorem jumpTo_mem (w : Word) (s : State) : (jumpTo w s).mem = s.mem := rfl
@[simp] theorem jumpTo_fb (w : Word) (s : State) : (jumpTo w s).fb = s.fb := rfl
@[simp] theorem jumpTo_fault (w : Word) (s : State) : (jumpTo w s).fault = s.fault := rfl
@[simp] theorem jumpTo_key (w : Word) (s : State) : (jumpTo w s).key = s.key := rfl
@[simp] theorem jumpTo_rnd (w : Word) (s : State) : (jumpTo w s).rnd = s.rnd := rfl
@[simp] theorem jumpTo_hostTick (w : Word) (s : State) : (jumpTo w s).hostTick = s.hostTick := rfl

@[simp] theorem getV_jumpTo (w : Word) (s : State) (q : Reg) : getV (jumpTo w s) q = getV s q := by
  simp only [getV, jumpTo_V]

/-! ### tickTimers -/

@[simp] theorem tickTimers_V (s : State) : (tickTimers s).V = s.V := rfl
@[simp] theorem tickTimers_I (s : State) : (tickTimers s).I = s.I := rfl
@[simp] theorem tickTimers_pc (s : State) : (tickTimers s).pc = s.pc := rfl
@[simp] theorem tickTimers_stack (s : State) : (tickTimers s).stack = s.stack := rfl
@[simp] theorem tickTimers_sp (s : State) : (tickTimers s).sp = s.sp := rfl
@[simp] theorem tickTimers_DT (s : State) : (tickTimers s).DT = countDown s.DT := rfl
@[simp] theorem tickTimers_ST (s : State) : (tickTimers s).ST = countDown s.ST := rfl
@[simp] theorem tickTimers_execState (s : State) : (tickTimers s).execState = s.execState := rfl
@[simp] theorem tickTimers_dirty (s : State) : (tickTimers s).dirty = s.dirty := rfl
@[simp] theorem tickTimers_mem (s : State) : (tickTimers s).mem = s.mem := rfl
@[simp] theorem tickTimers_fb (s : State) : (tickTimers s).fb = s.fb := rfl
@[simp] theorem tickTimers_fault (s : State) : (tickTimers s).fault = s.fault := rfl
@[simp] theorem tickTimers_key (s : State) : (tickTimers s).key = s.key := rfl
@[simp] theorem tickTimers_rnd (s : State) : (tickTimers s).rnd = s.rnd := rfl
@[simp] theorem tickTimers_hostTick (s : State) : (tickTimers s).hostTick = s.hostTick := rfl

@[simp] theorem getV_tickTimers (s : State) (q : Reg) : getV (tickTimers s) q = getV s q := by
  simp only [getV, tickTimers_V]

/-! ### advancePc -/

@[simp] theorem advancePc_V (i : Instr) (s : State) : (advancePc i s).V = s.V := by cases i <;> rfl
@[simp] theorem advancePc_I (i : Instr) (s : State) : (advancePc i s).I = s.I := by cases i <;> rfl
@[simp] theorem advancePc_pc (i : Instr) (s : State) : (advancePc i s).pc = if setsPc i then s.pc else s.pc + 2 := by cases i <;> rfl
@[simp] theorem advancePc_stack (i : Instr) (s : State) : (advancePc i s).stack = s.stack := by cases i <;> rfl
@[simp] theorem advancePc_sp (i : Instr) (s : State) : (advancePc i s).sp = s.sp := by cases i <;> rfl
@[simp] theorem advancePc_DT (i : Instr) (s : State) : (advancePc i s).DT = s.DT := by cases i <;> rfl
@[simp] theorem advancePc_ST (i : Instr) (s : State) : (advancePc i s).ST = s.ST := by cases i <;> rfl
@[simp] theorem advancePc_execState (i : Instr) (s : State) : (advancePc i s).execState = s.execState := by cases i <;> rfl
@[simp] theorem advancePc_dirty (i : Instr) (s : State) : (advancePc i s).dirty = s.dirty := by cases i <;> rfl
@[simp] theorem advancePc_mem (i : Instr) (s : State) : (advancePc i s).mem = s.mem := by cases i <;> rfl
@[simp] theorem advancePc_fb (i : Instr) (s : State) : (advancePc i s).fb = s.fb := by cases i <;> rfl
@[simp] theorem advancePc_fault (i : Instr) (s : State) : (advancePc i s).fault = s.fault := by cases i <;> rfl
@[simp] theorem advancePc_key (i : Instr) (s : State) : (advancePc i s).key = s.key := by cases i <;> rfl
@[simp] theorem advancePc_rnd (i : Instr) (s : State) : (advancePc i s).rnd = s.rnd := by cases i <;> rfl
@[simp] theorem advancePc_hostTick (i : Instr) (s : State) : (advancePc i s).hostTick = s.hostTick := by cases i <;> rfl

@[simp] theorem getV_advancePc (i : Instr) (s : State) (q : Reg) : getV (advancePc i s) q = getV s q := by
  simp only [getV, advancePc_V]

/-! ### finishStep -/

@[simp] theorem finishStep_V (i : Instr) (s : State) : (finishStep i s).V = s.V := by cases i <;> rfl
@[simp] theorem finishStep_I (i : Instr) (s : State) : (finishStep i s).I = s.I := by cases i <;> rfl
@[simp] theorem finishStep_pc (i : Instr) (s : State) : (finishStep i s).pc = if setsPc i then s.pc else s.pc + 2 := by cases i <;> rfl
@[simp] theorem finishStep_stack (i : Instr) (s : State) : (finishStep i s).stack = s.stack := by cases i <;> rfl
@[simp] theorem finishStep_sp (i : Instr) (s : State) : (finishStep i s).sp = s.sp := by cases i <;> rfl
@[simp] theorem finishStep_DT (i : Instr) (s : State) : (finishStep i s).DT = countDown s.DT := by cases i <;> rfl
@[simp] theorem finishStep_ST (i : Instr) (s : State) : (finishStep i s).ST = countDown s.ST := by cases i <;> rfl
@[simp] theorem finishStep_execState (i : Instr) (s : State) : (finishStep i s).execState = s.execState := by cases i <;> rfl
@[simp] theorem finishStep_dirty (i : Instr) (s : State) : (finishStep i s).dirty = s.dirty := by cases i <;> rfl
@[simp] theorem finishStep_mem (i : Instr) (s : State) : (finishStep i s).mem = s.mem := by cases i <;> rfl
@[simp] theorem finishStep_fb (i : Instr) (s : State) : (finishStep i s).fb = s.fb := by cases i <;> rfl
@[simp] theorem finishStep_fault (i : Instr) (s : State) : (finishStep i s).fault = s.fault := by cases i <;> rfl
@[simp] theorem finishStep_key (i : Instr) (s : State) : (finishStep i s).key = s.key := by cases i <;> rfl
@[simp] theorem finishStep_rnd (i : Instr) (s : State) : (finishStep i s).rnd = s.rnd := by cases i <;> rfl
@[simp] theorem finishStep_hostTick (i : Instr) (s : State) : (finishStep i s).hostTick = s.hostTick := by cases i <;> rfl

@[simp] theorem getV_finishStep (i : Instr) (s : State) (q : Reg) : getV (finishStep i s) q = getV s q := by
  simp only [getV, finishStep_V]

/-! ### presentInputs -/

@[simp] theorem presentInputs_V (k : Option Key) (b : Byte) (s : State) : (presentInputs k b s).V = s.V := rfl
@[simp] theorem presentInputs_I (k : Option Key) (b : Byte) (s : State) : (presentInputs k b s).I = s.I := rfl
@[simp] theorem presentInputs_pc (k : Option Key) (b : Byte) (s : State) : (presentInputs k b s).pc = s.pc := rfl
@[simp] theorem presentInputs_stack (k : Option Key) (b : Byte) (s : State) : (presentInputs k b s).stack = s.stack := rfl
@[simp] theorem presentInputs_sp (k : Option Key) (b : Byte) (s : State) : (presentInputs k b s).sp = s.sp := rfl
@[simp] theorem presentInputs_DT (k : Option Key) (b : Byte) (s : State) : (presentInputs k b s).DT = s.DT := rfl
@[simp] theorem presentInputs_ST (k : Option Key) (b : Byte) (s : State) : (presentInputs k b s).ST = s.ST := rfl
@[simp] theorem presentInputs_execState (k : Option Key) (b : Byte) (s : State) : (presentInputs k b s).execState = s.execState := rfl
@[simp] theorem presentInputs_dirty (k : Option Key) (b : Byte) (s : State) : (presentInputs k b s).dirty = s.dirty := rfl
@[simp] theorem presentInputs_mem (k : Option Key) (b : Byte) (s : State) : (presentInputs k b s).mem = s.mem := rfl
@[simp] theorem presentInputs_fb (k : Option Key) (b : Byte) (s : State) : (presentInputs k b s).fb = s.fb := rfl
@[simp] theorem presentInputs_fault (k : Option Key) (b : Byte) (s : State) : (presentInputs k b s).fault = s.fault := rfl
@[simp] theorem presentInputs_key (k : Option Key) (b : Byte) (s : State) : (presentInputs k b s).key = k := rfl
@[simp] theorem presentInputs_rnd (k : Option Key) (b : Byte) (s : State) : (presentInputs k b s).rnd = b := rfl
@[simp] theorem presentInputs_hostTick (k : Option Key) (b : Byte) (s : State) : (presentInputs k b s).hostTick = s.hostTick := rfl

@[simp] theorem getV_presentInputs (k : Option Key) (b : Byte) (s : State) (q : Reg) : getV (presentInputs k b s) q = getV s q := by
  simp only [getV, presentInputs_V]

/-! ### presentNext -/

@[simp] theorem presentNext_V (s : State) : (presentNext s).V = s.V := rfl
@[simp] theorem presentNext_I (s : State) : (presentNext s).I = s.I := rfl
@[simp] theorem presentNext_pc (s : State) : (presentNext s).pc = s.pc := rfl
@[simp] theorem presentNext_stack (s : State) : (presentNext s).stack = s.stack := rfl
@[simp] theorem presentNext_sp (s : State) : (presentNext s).sp = s.sp := rfl
@[simp] theorem presentNext_DT (s : State) : (presentNext s).DT = s.DT := rfl
@[simp] theorem presentNext_ST (s : State) : (presentNext s).ST = s.ST := rfl
@[simp] theorem presentNext_execState (s : State) : (presentNext s).execState = s.execState := rfl
@[simp] theorem presentNext_dirty (s : State) : (presentNext s).dirty = s.dirty := rfl
@[simp] theorem presentNext_mem (s : State) : (presentNext s).mem = s.mem := rfl
@[simp] theorem presentNext_fb (s : State) : (presentNext s).fb = s.fb := rfl
@[simp] theorem presentNext_fault (s : State) : (presentNext s).fault = s.fault := rfl
@[simp] theorem presentNext_key (s : State) : (presentNext s).key = Config.hostKey (s.hostTick + 1) := rfl
@[simp] theorem presentNext_rnd (s : State) : (presentNext s).rnd = Config.hostRnd (s.hostTick + 1) := rfl
@[simp] theorem presentNext_hostTick (s : State) : (presentNext s).hostTick = s.hostTick + 1 := rfl

@[simp] theorem getV_presentNext (s : State) (q : Reg) : getV (presentNext s) q = getV s q := by
  simp only [getV, presentNext_V]

/-! ### latchFault -/

@[simp] theorem latchFault_V (f : Fault) (s : State) : (latchFault f s).V = s.V := rfl
@[simp] theorem latchFault_I (f : Fault) (s : State) : (latchFault f s).I = s.I := rfl
@[simp] theorem latchFault_pc (f : Fault) (s : State) : (latchFault f s).pc = s.pc := rfl
@[simp] theorem latchFault_stack (f : Fault) (s : State) : (latchFault f s).stack = s.stack := rfl
@[simp] theorem latchFault_sp (f : Fault) (s : State) : (latchFault f s).sp = s.sp := rfl
@[simp] theorem latchFault_DT (f : Fault) (s : State) : (latchFault f s).DT = s.DT := rfl
@[simp] theorem latchFault_ST (f : Fault) (s : State) : (latchFault f s).ST = s.ST := rfl
@[simp] theorem latchFault_execState (f : Fault) (s : State) : (latchFault f s).execState = s.execState := rfl
@[simp] theorem latchFault_dirty (f : Fault) (s : State) : (latchFault f s).dirty = s.dirty := rfl
@[simp] theorem latchFault_mem (f : Fault) (s : State) : (latchFault f s).mem = s.mem := rfl
@[simp] theorem latchFault_fb (f : Fault) (s : State) : (latchFault f s).fb = s.fb := rfl
@[simp] theorem latchFault_fault (f : Fault) (s : State) : (latchFault f s).fault = some f := rfl
@[simp] theorem latchFault_key (f : Fault) (s : State) : (latchFault f s).key = s.key := rfl
@[simp] theorem latchFault_rnd (f : Fault) (s : State) : (latchFault f s).rnd = s.rnd := rfl
@[simp] theorem latchFault_hostTick (f : Fault) (s : State) : (latchFault f s).hostTick = s.hostTick := rfl

@[simp] theorem getV_latchFault (f : Fault) (s : State) (q : Reg) : getV (latchFault f s) q = getV s q := by
  simp only [getV, latchFault_V]

/-! ### setMem -/

@[simp] theorem setMem_V (s : State) (m : List Host.Cell) : (setMem s m).V = s.V := rfl
@[simp] theorem setMem_I (s : State) (m : List Host.Cell) : (setMem s m).I = s.I := rfl
@[simp] theorem setMem_pc (s : State) (m : List Host.Cell) : (setMem s m).pc = s.pc := rfl
@[simp] theorem setMem_stack (s : State) (m : List Host.Cell) : (setMem s m).stack = s.stack := rfl
@[simp] theorem setMem_sp (s : State) (m : List Host.Cell) : (setMem s m).sp = s.sp := rfl
@[simp] theorem setMem_DT (s : State) (m : List Host.Cell) : (setMem s m).DT = s.DT := rfl
@[simp] theorem setMem_ST (s : State) (m : List Host.Cell) : (setMem s m).ST = s.ST := rfl
@[simp] theorem setMem_execState (s : State) (m : List Host.Cell) : (setMem s m).execState = s.execState := rfl
@[simp] theorem setMem_dirty (s : State) (m : List Host.Cell) : (setMem s m).dirty = s.dirty := rfl
@[simp] theorem setMem_mem (s : State) (m : List Host.Cell) : (setMem s m).mem = m := rfl
@[simp] theorem setMem_fb (s : State) (m : List Host.Cell) : (setMem s m).fb = s.fb := rfl
@[simp] theorem setMem_fault (s : State) (m : List Host.Cell) : (setMem s m).fault = s.fault := rfl
@[simp] theorem setMem_key (s : State) (m : List Host.Cell) : (setMem s m).key = s.key := rfl
@[simp] theorem setMem_rnd (s : State) (m : List Host.Cell) : (setMem s m).rnd = s.rnd := rfl
@[simp] theorem setMem_hostTick (s : State) (m : List Host.Cell) : (setMem s m).hostTick = s.hostTick := rfl

@[simp] theorem getV_setMem (s : State) (m : List Host.Cell) (q : Reg) : getV (setMem s m) q = getV s q := by
  simp only [getV, setMem_V]

/-! ### setDT -/

@[simp] theorem setDT_V (s : State) (v : Byte) : (setDT s v).V = s.V := rfl
@[simp] theorem setDT_I (s : State) (v : Byte) : (setDT s v).I = s.I := rfl
@[simp] theorem setDT_pc (s : State) (v : Byte) : (setDT s v).pc = s.pc := rfl
@[simp] theorem setDT_stack (s : State) (v : Byte) : (setDT s v).stack = s.stack := rfl
@[simp] theorem setDT_sp (s : State) (v : Byte) : (setDT s v).sp = s.sp := rfl
@[simp] theorem setDT_DT (s : State) (v : Byte) : (setDT s v).DT = v := rfl
@[simp] theorem setDT_ST (s : State) (v : Byte) : (setDT s v).ST = s.ST := rfl
@[simp] theorem setDT_execState (s : State) (v : Byte) : (setDT s v).execState = s.execState := rfl
@[simp] theorem setDT_dirty (s : State) (v : Byte) : (setDT s v).dirty = s.dirty := rfl
@[simp] theorem setDT_mem (s : State) (v : Byte) : (setDT s v).mem = s.mem := rfl
@[simp] theorem setDT_fb (s : State) (v : Byte) : (setDT s v).fb = s.fb := rfl
@[simp] theorem setDT_fault (s : State) (v : Byte) : (setDT s v).fault = s.fault := rfl
@[simp] theorem setDT_key (s : State) (v : Byte) : (setDT s v).key = s.key := rfl
@[simp] theorem setDT_rnd (s : State) (v : Byte) : (setDT s v).rnd = s.rnd := rfl
@[simp] theorem setDT_hostTick (s : State) (v : Byte) : (setDT s v).hostTick = s.hostTick := rfl

@[simp] theorem getV_setDT (s : State) (v : Byte) (q : Reg) : getV (setDT s v) q = getV s q := by
  simp only [getV, setDT_V]

/-! ### setST -/

@[simp] theorem setST_V (s : State) (v : Byte) : (setST s v).V = s.V := rfl
@[simp] theorem setST_I (s : State) (v : Byte) : (setST s v).I = s.I := rfl
@[simp] theorem setST_pc (s : State) (v : Byte) : (setST s v).pc = s.pc := rfl
@[simp] theorem setST_stack (s : State) (v : Byte) : (setST s v).stack = s.stack := rfl
@[simp] theorem setST_sp (s : State) (v : Byte) : (setST s v).sp = s.sp := rfl
@[simp] theorem setST_DT (s : State) (v : Byte) : (setST s v).DT = s.DT := rfl
@[simp] theorem setST_ST (s : State) (v : Byte) : (setST s v).ST = v := rfl
@[simp] theorem setST_execState (s : State) (v : Byte) : (setST s v).execState = s.execState := rfl
@[simp] theorem setST_dirty (s : State) (v : Byte) : (setST s v).dirty = s.dirty := rfl
@[simp] theorem setST_mem (s : State) (v : Byte) : (setST s v).mem = s.mem := rfl
@[simp] theorem setST_fb (s : State) (v : Byte) : (setST s v).fb = s.fb := rfl
@[simp] theorem setST_fault (s : State) (v : Byte) : (setST s v).fault = s.fault := rfl
@[simp] theorem setST_key (s : State) (v : Byte) : (setST s v).key = s.key := rfl
@[simp] theorem setST_rnd (s : State) (v : Byte) : (setST s v).rnd = s.rnd := rfl
@[simp] theorem setST_hostTick (s : State) (v : Byte) : (setST s v).hostTick = s.hostTick := rfl

@[simp] theorem getV_setST (s : State) (v : Byte) (q : Reg) : getV (setST s v) q = getV s q := by
  simp only [getV, setST_V]

/-! ### setExecState -/

@[simp] theorem setExecState_V (s : State) (e : ExecState) : (setExecState s e).V = s.V := rfl
@[simp] theorem setExecState_I (s : State) (e : ExecState) : (setExecState s e).I = s.I := rfl
@[simp] theorem setExecState_pc (s : State) (e : ExecState) : (setExecState s e).pc = s.pc := rfl
@[simp] theorem setExecState_stack (s : State) (e : ExecState) : (setExecState s e).stack = s.stack := rfl
@[simp] theorem setExecState_sp (s : State) (e : ExecState) : (setExecState s e).sp = s.sp := rfl
@[simp] theorem setExecState_DT (s : State) (e : ExecState) : (setExecState s e).DT = s.DT := rfl
@[simp] theorem setExecState_ST (s : State) (e : ExecState) : (setExecState s e).ST = s.ST := rfl
@[simp] theorem setExecState_execState (s : State) (e : ExecState) : (setExecState s e).execState = e := rfl
@[simp] theorem setExecState_dirty (s : State) (e : ExecState) : (setExecState s e).dirty = s.dirty := rfl
@[simp] theorem setExecState_mem (s : State) (e : ExecState) : (setExecState s e).mem = s.mem := rfl
@[simp] theorem setExecState_fb (s : State) (e : ExecState) : (setExecState s e).fb = s.fb := rfl
@[simp] theorem setExecState_fault (s : State) (e : ExecState) : (setExecState s e).fault = s.fault := rfl
@[simp] theorem setExecState_key (s : State) (e : ExecState) : (setExecState s e).key = s.key := rfl
@[simp] theorem setExecState_rnd (s : State) (e : ExecState) : (setExecState s e).rnd = s.rnd := rfl
@[simp] theorem setExecState_hostTick (s : State) (e : ExecState) : (setExecState s e).hostTick = s.hostTick := rfl

@[simp] theorem getV_setExecState (s : State) (e : ExecState) (q : Reg) : getV (setExecState s e) q = getV s q := by
  simp only [getV, setExecState_V]

end Sys2Proof.Machine
end

