-- ==== Sys2Proof/Laws/Registers.lean ====
section
/-! SUPPORT. The register file: read after write, the flag, the loops over registers, the stack. -/

namespace Sys2Proof.Machine

/-- The storage law of the registers (spec/10_state.md R39): one equation for the same and for every other register. -/
theorem getV_setV (s : State) (r q : Reg) (v : Byte) :
    getV (setV s r v) q = if q = r then v else getV s q := by
  simp only [getV, setV_V, Vector.getElem_set]
  by_cases h : q = r
  · simp [h]
  · have : r.toNat ≠ q.toNat := fun e => h (BitVec.eq_of_toNat_eq e.symm)
    simp [h, this]

@[simp] theorem getV_setV_same (s : State) (r : Reg) (v : Byte) : getV (setV s r v) r = v := by simp [getV_setV]

theorem getV_setV_other (s : State) {r q : Reg} (v : Byte) (h : q ≠ r) : getV (setV s r v) q = getV s q := by
  simp [getV_setV, h]

theorem getV_setFlag (s : State) (b : Bool) (q : Reg) :
    getV (setFlag s b) q = if q = VF then flagByte b else getV s q := getV_setV s VF q _

@[simp] theorem getV_setFlag_same (s : State) (b : Bool) : getV (setFlag s b) VF = flagByte b := by
  simp [getV_setFlag]

theorem getV_with (s t : State) (h : t.V = s.V) (q : Reg) : getV t q = getV s q := by simp only [getV, h]

/-! ### Register numbers of a loop -/

theorem regOfNat_toNat (r : Reg) : regOfNat r.toNat = r := by simp [regOfNat]

theorem regOfNat_inj {j k : Nat} (hj : j < 16) (hk : k < 16) (h : regOfNat j = regOfNat k) : j = k := by
  have := congrArg BitVec.toNat h
  simp only [regOfNat, BitVec.toNat_ofNat] at this
  omega

@[simp] theorem regsUpTo_length (s : State) (x : Reg) : (regsUpTo s x).length = x.toNat + 1 := by simp [regsUpTo]

theorem regsUpTo_getElem (s : State) (x : Reg) (k : Nat) (h : k < (regsUpTo s x).length) :
    (regsUpTo s x)[k] = getV s (regOfNat k) := by simp [regsUpTo]

@[simp] theorem decimalDigits_length (v : Byte) : (decimalDigits v).length = 3 := rfl

/-- Everything a run of register loads does when it stays inside the address space. -/
theorem loadRegsFrom_ok (count : Nat) :
    ∀ (s : State) (addr k : Nat), addr + count ≤ 0x1000 → k + count ≤ 16 →
      ∃ t, loadRegsFrom s addr k count = .ok t ∧ SameBut [.V] s t ∧ t.mem = s.mem ∧
        (∀ j, j < count → getV t (regOfNat (k + j)) = Memory.get s.mem (addr + j)) ∧
        (∀ q : Reg, (q.toNat < k ∨ k + count ≤ q.toNat) → getV t q = getV s q) := by
  induction count with
  | zero =>
    intro s addr k _ _
    exact ⟨s, rfl, fun p _ => by cases p <;> simp [keeps], rfl, by simp, fun _ _ => rfl⟩
  | succ count ih =>
    intro s addr k ha hk
    obtain ⟨t, he, hs, hm, hin, hout⟩ :=
      ih (setV s (regOfNat k) (Memory.get s.mem addr)) (addr + 1) (k + 1) (by omega) (by omega)
    refine ⟨t, ?_, ?_, by simpa using hm, ?_, ?_⟩
    · simp only [loadRegsFrom, memRead_ok (show addr < 0x1000 by omega), he]
    · intro p hp
      have := hs p hp
      cases p <;> simp_all [keeps]
    · intro j hj
      cases j with
      | zero =>
        have hkn : (regOfNat k).toNat = k := by simp [regOfNat]; omega
        simpa using hout (regOfNat k) (by omega)
      | succ j =>
        have := hin j (by omega)
        simpa [Nat.add_assoc, Nat.add_comm 1 j] using this
    · intro q hq
      have hkn : (regOfNat k).toNat = k := by simp [regOfNat]; omega
      rw [hout q (by omega), getV_setV_other]
      intro e
      rw [e] at hq
      omega

/-- A run of register loads that leaves the address space raises at its first offending address. -/
theorem loadRegsFrom_error (count : Nat) :
    ∀ (s : State) (addr k : Nat), 0 < count → 0x1000 < addr + count →
      loadRegsFrom s addr k count = .error (.boundsError (firstOffence addr)) := by
  induction count with
  | zero => intro s addr k h; omega
  | succ count ih =>
    intro s addr k _ h
    by_cases ha : 0x1000 ≤ addr
    · simp [loadRegsFrom, memRead_error ha, firstOffence, boundsAt, show addr > 0xFFF by omega]
    · simp only [loadRegsFrom, memRead_ok (show addr < 0x1000 by omega)]
      rw [ih _ (addr + 1) (k + 1) (by omega) (by omega)]
      by_cases h2 : addr + 1 > 0xFFF
      · simp [firstOffence, show ¬ addr > 0xFFF by omega, show addr + 1 = 0x1000 by omega]
      · simp [firstOffence, h2, show ¬ addr > 0xFFF by omega]

/-! ### The stack -/

theorem pushWord_ok {s : State} {w : Word} (h : s.sp.toNat < 16) :
    pushWord s w = .ok { s with stack := s.stack.set s.sp.toNat w h, sp := s.sp + 1 } := by
  simp [pushWord, h]

theorem pushWord_error {s : State} {w : Word} (h : 16 ≤ s.sp.toNat) :
    pushWord s w = .error (boundsAt s.sp.toNat) := by
  simp [pushWord, Nat.not_lt.2 h]

theorem sp_sub_one_toNat {b : Byte} (h : b ≠ 0) : (b - 1).toNat = b.toNat - 1 := by
  have h1 : b.toNat ≠ 0 := fun e => h (BitVec.eq_of_toNat_eq e)
  have h2 := b.isLt
  rw [BitVec.toNat_sub, show (1 : Byte).toNat = 1 from rfl]
  omega

theorem popToPc_ok {s : State} (h0 : s.sp ≠ 0) (h : s.sp.toNat - 1 < 16) :
    popToPc s = .ok { s with sp := s.sp - 1, pc := s.stack[s.sp.toNat - 1] } := by
  unfold popToPc
  rw [if_neg h0, dif_pos h]

theorem popToPc_empty {s : State} (h0 : s.sp = 0) : popToPc s = .error (boundsAt 255) := by
  unfold popToPc
  rw [if_pos h0]

theorem popToPc_high {s : State} (h : 16 < s.sp.toNat) : popToPc s = .error (boundsAt (s.sp.toNat - 1)) := by
  have h0 : s.sp ≠ 0 := by rintro e; simp [e] at h
  unfold popToPc
  rw [if_neg h0, dif_neg (by simp only [Config.stackDepth]; omega)]

end Sys2Proof.Machine
end

