-- ==== Sys2Proof/Laws/Display.lean ====
section
/-! SUPPORT. What the display primitives do, pixel by pixel: a row of a sprite, the whole sprite, the collision. -/

namespace Sys2Proof.Machine

theorem pixelAt_mod (fb : Framebuffer) (c r : Nat) : pixelAt fb (c % 64) (r % 32) = pixelAt fb c r := by
  simp [pixelAt]

theorem pixelAt_congr (fb : Framebuffer) {c c' r r' : Nat} (hc : c % 64 = c' % 64) (hr : r % 32 = r' % 32) :
    pixelAt fb c r = pixelAt fb c' r' := by
  rw [← pixelAt_mod fb c r, hc, hr, pixelAt_mod]

/-- The storage law of the framebuffer (spec/10_state.md R39): one equation for the same and every other pixel. -/
theorem pixelAt_setPixel (fb : Framebuffer) (c r c' r' : Nat) (b : Bool) :
    pixelAt (setPixel fb c r b) c' r' =
      if c' % 64 = c % 64 ∧ r' % 32 = r % 32 then b else pixelAt fb c' r' := by
  simp only [pixelAt, setPixel, Vector.getElem_set]
  by_cases hr : r % 32 = r' % 32
  · by_cases hc : c % 64 = c' % 64
    · simp [hr, hc]
    · simp [hr, hc, Ne.symm hc]
  · simp [hr, Ne.symm hr]

@[simp] theorem pixelAt_blankFb (c r : Nat) : pixelAt blankFb c r = false := by
  simp [pixelAt, blankFb]

theorem framebuffer_ext {a b : Framebuffer} (h : ∀ c r, pixelAt a c r = pixelAt b c r) : a = b := by
  apply Vector.ext
  intro r hr
  apply Vector.ext
  intro c hc
  have := h c r
  simpa only [pixelAt, Nat.mod_eq_of_lt hr, Nat.mod_eq_of_lt hc] using this

/-! ### One row -/

/-- Whether column `col` lies under a set bit of `byte` drawn at column `x`, among its first `m` bits. -/
def rowCovers (byte : Byte) (x m col : Nat) : Bool :=
  (List.range m).any fun c => (x + c) % 64 == col && byte.getLsbD (7 - c)

theorem rowCovers_iff {byte : Byte} {x m col : Nat} :
    rowCovers byte x m col = true ↔ ∃ c, c < m ∧ (x + c) % 64 = col ∧ byte.getLsbD (7 - c) = true := by
  simp [rowCovers]

theorem rowCovers_succ (byte : Byte) (x m col : Nat) :
    rowCovers byte x (m + 1) col = (rowCovers byte x m col || ((x + m) % 64 == col && byte.getLsbD (7 - m))) := by
  simp [rowCovers, List.range_succ]

theorem rowCovers_here {byte : Byte} {x m : Nat} (h : m < 64) : rowCovers byte x m ((x + m) % 64) = false := by
  rw [Bool.eq_false_iff, ne_eq, rowCovers_iff]
  rintro ⟨c, hc, he, -⟩
  omega

/-- The first `m` bits of a row drawn: each pixel and the collision. -/
theorem drawBits_spec (fb : Framebuffer) (x y : Nat) (byte : Byte) (m : Nat) (hm : m ≤ 8) :
    (∀ c r, pixelAt ((List.range m).foldl (drawBit x y byte) (fb, false)).1 c r =
      (pixelAt fb c r ^^ (decide (y % 32 = r % 32) && rowCovers byte x m (c % 64)))) ∧
    (((List.range m).foldl (drawBit x y byte) (fb, false)).2 = true ↔
      ∃ c, c < m ∧ byte.getLsbD (7 - c) = true ∧ pixelAt fb (x + c) y = true) := by
  induction m with
  | zero => simp [rowCovers]
  | succ m ih =>
    obtain ⟨ihp, ihc⟩ := ih (by omega)
    rw [List.range_succ, List.foldl_append]
    generalize hp : (List.range m).foldl (drawBit x y byte) (fb, false) = p at ihp ihc ⊢
    have hold : pixelAt p.1 (x + m) y = pixelAt fb (x + m) y := by
      rw [ihp, rowCovers_here (by omega)]; simp
    refine ⟨fun c r => ?_, ?_⟩
    · simp only [List.foldl_cons, List.foldl_nil, drawBit, spriteBit, pixelAt_setPixel, rowCovers_succ]
      by_cases hr : y % 32 = r % 32
      · by_cases hc : (x + m) % 64 = c % 64
        · have e : pixelAt fb c r = pixelAt fb (x + m) y := pixelAt_congr fb hc.symm hr.symm
          have : rowCovers byte x m (c % 64) = false := by rw [← hc]; exact rowCovers_here (by omega)
          simp [hr, hc, hold, e, this]
        · simp [hr, hc, Ne.symm hc, ihp]
      · simp [hr, Ne.symm hr, ihp]
    · simp only [List.foldl_cons, List.foldl_nil, drawBit, spriteBit, hold, Bool.or_eq_true, ihc, Bool.and_eq_true]
      constructor
      · rintro (⟨c, hc, h1, h2⟩ | ⟨h1, h2⟩)
        · exact ⟨c, by omega, h1, h2⟩
        · exact ⟨m, by omega, h1, h2⟩
      · rintro ⟨c, hc, h1, h2⟩
        by_cases e : c = m
        · subst e; exact .inr ⟨h1, h2⟩
        · exact .inl ⟨c, by omega, h1, h2⟩

/-- `drawByte` toggles exactly the pixels under its set bits (spec/44_display.md R200). -/
theorem pixelAt_drawByte (fb : Framebuffer) (x y : Nat) (byte : Byte) (c r : Nat) :
    pixelAt (drawByte fb x y byte).1 c r =
      (pixelAt fb c r ^^ (decide (y % 32 = r % 32) && rowCovers byte x 8 (c % 64))) :=
  (drawBits_spec fb x y byte 8 (by omega)).1 c r

/-- `drawByte` collides exactly when a set bit meets a set pixel (spec/44_display.md R200). -/
theorem drawByte_collides (fb : Framebuffer) (x y : Nat) (byte : Byte) :
    (drawByte fb x y byte).2 = true ↔
      ∃ c, c < 8 ∧ byte.getLsbD (7 - c) = true ∧ pixelAt fb (x + c) y = true :=
  (drawBits_spec fb x y byte 8 (by omega)).2

/-! ### The whole sprite -/

theorem spriteCovers_iff {byte : Nat → Byte} {n x y col row : Nat} :
    spriteCovers byte n x y col row = true ↔
      ∃ r, r < n ∧ (y + r) % 32 = row ∧ rowCovers (byte r) x 8 col = true := by
  simp only [spriteCovers, List.any_eq_true, List.mem_range, rowCovers_iff, Bool.and_eq_true, beq_iff_eq]
  constructor
  · rintro ⟨r, hr, c, hc, ⟨h1, h2⟩, h3⟩; exact ⟨r, hr, h1, c, hc, h2, h3⟩
  · rintro ⟨r, hr, h1, c, hc, h2, h3⟩; exact ⟨r, hr, c, hc, ⟨h1, h2⟩, h3⟩

/-- A sprite of `n + 1` rows is its first row and the `n` rows below it. -/
theorem spriteCovers_succ (byte : Nat → Byte) (n x y col row : Nat) :
    spriteCovers byte (n + 1) x y col row =
      ((decide (y % 32 = row) && rowCovers (byte 0) x 8 col) ||
        spriteCovers (fun r => byte (r + 1)) n x (y + 1) col row) := by
  rw [Bool.eq_iff_iff, Bool.or_eq_true, Bool.and_eq_true, decide_eq_true_eq, spriteCovers_iff, spriteCovers_iff]
  constructor
  · rintro ⟨r, hr, h1, h2⟩
    cases r with
    | zero => exact .inl ⟨h1, h2⟩
    | succ r => exact .inr ⟨r, by omega, by rw [← h1]; congr 1; omega, h2⟩
  · rintro (⟨h1, h2⟩ | ⟨r, hr, h1, h2⟩)
    · exact ⟨0, by omega, h1, h2⟩
    · exact ⟨r + 1, by omega, by rw [← h1]; congr 1; omega, h2⟩

/-- Rows of a sprite of fewer than 32 rows do not meet: the rows below the first never lie on it. -/
theorem spriteCovers_other_row {byte : Nat → Byte} {n x y col : Nat} (h : n < 32) :
    spriteCovers byte n x (y + 1) col (y % 32) = false := by
  rw [Bool.eq_false_iff, ne_eq, spriteCovers_iff]
  rintro ⟨r, hr, he, -⟩
  omega

/-- Everything the row loop of Dxyn does when its reads stay inside the address space (spec/44_display.md R203): each
pixel toggled exactly when the sprite covers it; a collision exactly when a covered pixel was set. -/
theorem drawRows_ok (m : List Host.Cell) (x n : Nat) :
    ∀ (addr y : Nat) (fb : Framebuffer), n ≤ 32 → (n = 0 ∨ addr + n ≤ 0x1000) →
      ∃ p, drawRows m addr x y n fb = .ok p ∧
        (∀ c r, pixelAt p.1 c r =
          (pixelAt fb c r ^^ spriteCovers (fun k => Memory.get m (addr + k)) n x y (c % 64) (r % 32))) ∧
        (p.2 = true ↔ ∃ c r, c < 64 ∧ r < 32 ∧ pixelAt fb c r = true ∧
          spriteCovers (fun k => Memory.get m (addr + k)) n x y c r = true) := by
  induction n with
  | zero =>
    intro addr y fb _ _
    exact ⟨(fb, false), rfl, by simp [spriteCovers], by simp [spriteCovers]⟩
  | succ n ih =>
    intro addr y fb hn ha
    have ha : addr + (n + 1) ≤ 0x1000 := by omega
    obtain ⟨q, hq, hpix, hcol⟩ := ih (addr + 1) (y + 1) (drawByte fb x y (Memory.get m addr)).1 (by omega) (by omega)
    have hbytes : (fun k => Memory.get m (addr + 1 + k)) = fun k => Memory.get m (addr + (k + 1)) := by
      funext k; congr 1; omega
    rw [hbytes] at hpix hcol
    have hsucc := spriteCovers_succ (fun k => Memory.get m (addr + k)) n x y
    simp only [Nat.add_zero] at hsucc
    have hpixel : ∀ c r, spriteCovers (fun k => Memory.get m (addr + (k + 1))) n x (y + 1) (c % 64) (r % 32) = true →
        pixelAt (drawByte fb x y (Memory.get m addr)).1 c r = pixelAt fb c r := by
      intro c r h
      rw [pixelAt_drawByte]
      by_cases hr : y % 32 = r % 32
      · rw [← hr, spriteCovers_other_row (by omega)] at h; simp at h
      · simp [hr]
    refine ⟨(q.1, (drawByte fb x y (Memory.get m addr)).2 || q.2), ?_, ?_, ?_⟩
    · simp only [drawRows, memRead_ok (show addr < 0x1000 by omega), hq]
    · intro c r
      simp only [hpix, hsucc]
      by_cases hs : spriteCovers (fun k => Memory.get m (addr + (k + 1))) n x (y + 1) (c % 64) (r % 32) = true
      · rw [hpixel c r hs, hs]; simp
      · rw [pixelAt_drawByte, Bool.eq_false_iff.2 hs]; simp
    · simp only [Bool.or_eq_true, hcol, drawByte_collides, hsucc, Bool.and_eq_true, decide_eq_true_eq]
      constructor
      · rintro (⟨c, hc, h1, h2⟩ | ⟨c, r, hc, hr, h1, h2⟩)
        · refine ⟨(x + c) % 64, y % 32, Nat.mod_lt _ (by omega), Nat.mod_lt _ (by omega), ?_, .inl ⟨rfl, ?_⟩⟩
          · rw [pixelAt_mod]; exact h2
          · exact rowCovers_iff.2 ⟨c, hc, rfl, h1⟩
        · refine ⟨c, r, hc, hr, ?_, .inr h2⟩
          rw [← hpixel c r (by rwa [Nat.mod_eq_of_lt hc, Nat.mod_eq_of_lt hr])]
          exact h1
      · rintro ⟨c, r, hc, hr, h1, (⟨h2, h3⟩ | h2)⟩
        · obtain ⟨k, hk, he, hb⟩ := rowCovers_iff.1 h3
          refine .inl ⟨k, hk, hb, ?_⟩
          rw [← h1]
          exact pixelAt_congr fb (by omega) (by omega)
        · refine .inr ⟨c, r, hc, hr, ?_, h2⟩
          rw [hpixel c r (by rwa [Nat.mod_eq_of_lt hc, Nat.mod_eq_of_lt hr])]
          exact h1

/-- A sprite whose reads leave the address space raises at the first offending address. -/
theorem drawRows_error (m : List Host.Cell) (x n : Nat) :
    ∀ (addr y : Nat) (fb : Framebuffer), 0 < n → 0x1000 < addr + n →
      drawRows m addr x y n fb = .error (.boundsError (firstOffence addr)) := by
  induction n with
  | zero => intro addr y fb h; omega
  | succ n ih =>
    intro addr y fb _ h
    by_cases ha : 0x1000 ≤ addr
    · simp [drawRows, memRead_error ha, firstOffence, boundsAt, show addr > 0xFFF by omega]
    · simp only [drawRows, memRead_ok (show addr < 0x1000 by omega)]
      rw [ih (addr + 1) (y + 1) _ (by omega) (by omega)]
      by_cases h2 : addr + 1 > 0xFFF
      · simp [firstOffence, show ¬ addr > 0xFFF by omega, show addr + 1 = 0x1000 by omega]
      · simp [firstOffence, h2, show ¬ addr > 0xFFF by omega]

/-! ### Counting pixels -/

theorem sum_set (l : List Nat) (i v : Nat) (h : i < l.length) : (l.set i v).sum + l[i] = l.sum + v := by
  induction l generalizing i with
  | nil => simp at h
  | cons a l ih =>
    cases i with
    | zero => simp; omega
    | succ i => simp; have := ih i (by simpa using h); omega

theorem countP_set_true (l : List Bool) (i : Nat) (h : i < l.length) (h0 : l[i] = false) :
    (l.set i true).countP (· = true) = l.countP (· = true) + 1 := by
  induction l generalizing i with
  | nil => simp at h
  | cons a l ih =>
    cases i with
    | zero => simp at h0; simp [h0]
    | succ i => simp [List.countP_cons] at *; rw [ih i (by simpa using h) h0]; omega

/-- Writing a clear pixel adds one to the count exactly when it sets it. -/
theorem litPixels_setPixel (fb : Framebuffer) (c r : Nat) (b : Bool) (h : pixelAt fb c r = false) :
    litPixels (setPixel fb c r b) = litPixels fb + b.toNat := by
  cases b with
  | false =>
    have : setPixel fb c r false = fb := framebuffer_ext fun c' r' => by
      rw [pixelAt_setPixel]
      split
      · rename_i e; rw [← h]; exact pixelAt_congr fb e.1.symm e.2.symm
      · rfl
    rw [this]; rfl
  | true =>
    have hr : r % 32 < (fb.toList.map fun row => row.toList.countP (· = true)).length := by simp; omega
    have hc : c % 64 < (fb[r % 32]'(Nat.mod_lt _ (by decide))).toList.length := by simp; omega
    have := sum_set _ (r % 32) ((fb[r % 32]'(Nat.mod_lt _ (by decide))).toList.countP (· = true) + 1) hr
    have g := countP_set_true _ (c % 64) hc (by simpa [pixelAt] using h)
    simp only [litPixels, setPixel, Vector.toList_set, List.map_set] at *
    rw [g]
    simp at this ⊢; omega

end Sys2Proof.Machine
end

