-- ==== Sys2Proof/Laws/Exec.lean ====
section
/-! SUPPORT. Everything the shared operations behind the meanings can do, one lemma per operation and outcome. -/

namespace Sys2Proof.Machine

theorem boundsAt_byte (b : Byte) : boundsAt b.toNat = .boundsError (b.setWidth 16) := by
  simp only [boundsAt, Fault.boundsError.injEq]
  apply BitVec.eq_of_toNat_eq
  simp

/-- A frame that names fewer pieces is stronger. -/
theorem SameBut.mono {ps qs : List Piece} {s t : State} (h : SameBut ps s t) (hs : ∀ p ∈ ps, p ∈ qs) :
    SameBut qs s t := fun p hp => h p fun hm => hp (hs p hm)

theorem SameBut.refl (ps : List Piece) (s : State) : SameBut ps s s := by
  intro p _; cases p <;> simp [keeps]

/-- Frames compose. -/
theorem SameBut.trans {ps qs : List Piece} {s t u : State} (h : SameBut ps s t) (g : SameBut qs t u) :
    SameBut (ps ++ qs) s u := by
  intro p hp
  have h := h p (by simp_all)
  have g := g p (by simp_all)
  cases p <;> simp_all [keeps]

theorem setV_sameBut (s : State) (r : Reg) (v : Byte) : SameBut [.V] s (setV s r v) := by
  intro p hp; cases p <;> simp_all [keeps]

theorem setFlag_sameBut (s : State) (b : Bool) : SameBut [.V] s (setFlag s b) := setV_sameBut s VF _

theorem setI_sameBut (s : State) (w : Word) : SameBut [.I] s (setI s w) := by
  intro p hp; cases p <;> simp_all [keeps]

theorem skipIf_sameBut (c : Bool) (s : State) : SameBut [.pc] s (skipIf c s) := by
  intro p hp; cases p <;> simp_all [keeps]

theorem jumpTo_sameBut (w : Word) (s : State) : SameBut [.pc] s (jumpTo w s) := by
  intro p hp; cases p <;> simp_all [keeps]

/-! ### Stores at I -/

/-- Everything a store at `I` does when it fits (spec/43_index_memory.md R183, R184). -/
theorem storeAtIndex_ok {s : State} {bs : List Byte} (h : s.I.toNat + bs.length ≤ 0x1000) :
    ∃ t, storeAtIndex s bs = .next t ∧ SameBut [.mem] s t ∧ SameBytesBut s.I.toNat bs.length s t ∧
      (∀ k, (hk : k < bs.length) → Memory.get t.mem (s.I.toNat + k) = bs[k]) ∧
      (Memory.wf s.mem = true → Memory.wf t.mem = true) := by
  obtain ⟨m, he, hin, hout, hwf⟩ := memWriteBytes_ok bs s.mem s.I.toNat h
  refine ⟨setMem s m, by simp only [storeAtIndex, indexAddr, he], ?_, hout, hin, hwf⟩
  intro p hp; cases p <;> simp_all [keeps, getV]

/-- A store at `I` that does not fit raises at the first offending address. -/
theorem storeAtIndex_error {s : State} {bs : List Byte} (h0 : 0 < bs.length) (h : 0x1000 < s.I.toNat + bs.length) :
    storeAtIndex s bs = .fault (.boundsError (firstOffence s.I.toNat)) := by
  simp only [storeAtIndex, indexAddr, memWriteBytes_error bs s.mem s.I.toNat h0 h, raise]

/-! ### Call and return -/

/-- Everything a call does when the stack has room (spec/41_control_flow.md R141). -/
theorem execCall_ok {s : State} (nnn : Addr) (h : s.sp.toNat < 16) :
    execCall nnn s =
      .next { s with stack := s.stack.set s.sp.toNat s.pc h, sp := s.sp + 1, pc := addrOperand nnn } := by
  simp only [execCall, pushWord_ok h, orRaise, onNext, jumpTo]

/-- A call with a full stack raises. -/
theorem execCall_error {s : State} (nnn : Addr) (h : 16 ≤ s.sp.toNat) :
    execCall nnn s = .fault (.boundsError (s.sp.setWidth 16)) := by
  simp only [execCall, pushWord_error h, orRaise, raise, onNext, boundsAt_byte]

/-- Everything a return does when the stack is not empty (spec/41_control_flow.md R142). -/
theorem execRet_ok {s : State} (h0 : s.sp ≠ 0) (h : s.sp.toNat - 1 < 16) :
    execRet s = .next { s with sp := s.sp - 1, pc := s.stack[s.sp.toNat - 1] } := by
  simp only [execRet, popToPc_ok h0 h, orRaise]

/-- A return with an empty stack raises. -/
theorem execRet_empty {s : State} (h0 : s.sp = 0) : execRet s = .fault (.boundsError 255) := by
  simp only [execRet, popToPc_empty h0, orRaise, raise]
  rfl

/-! ### Register load -/

/-- Everything Fx65 does when its range fits (spec/43_index_memory.md R185). -/
theorem execLoadRegs_ok {s : State} {x : Reg} (h : s.I.toNat + x.toNat ≤ 0xFFF) :
    ∃ t, execLoadRegs x s = .next t ∧ SameBut [.V] s t ∧ t.mem = s.mem ∧
      (∀ q : Reg, q.toNat ≤ x.toNat → getV t q = Memory.get s.mem (s.I.toNat + q.toNat)) ∧
      (∀ q : Reg, x.toNat < q.toNat → getV t q = getV s q) := by
  have := x.isLt
  obtain ⟨t, he, hs, hm, hin, hout⟩ := loadRegsFrom_ok (x.toNat + 1) s s.I.toNat 0 (by omega) (by omega)
  refine ⟨t, by simp only [execLoadRegs, indexAddr, he, orRaise], hs, hm, ?_, fun q hq => hout q (by omega)⟩
  intro q hq
  have := hin q.toNat (by omega)
  rwa [Nat.zero_add, regOfNat_toNat] at this

/-- Fx65 with a range that does not fit raises at the first offending address. -/
theorem execLoadRegs_error {s : State} {x : Reg} (h : 0xFFF < s.I.toNat + x.toNat) :
    execLoadRegs x s = .fault (.boundsError (firstOffence s.I.toNat)) := by
  simp only [execLoadRegs, indexAddr, loadRegsFrom_error (x.toNat + 1) s s.I.toNat 0 (by omega) (by omega),
    orRaise, raise]

/-! ### Sprite draw -/

/-- Everything Dxyn does when its rows fit, or when it has none (spec/44_display.md R203). -/
theorem execDrw_ok {s : State} {x y : Reg} {n : Rows} (h : n.toNat = 0 ∨ s.I.toNat + n.toNat ≤ 0x1000) :
    ∃ t coll, execDrw x y n s = .next t ∧ SameBut [.V, .fb, .dirty] s t ∧ t.dirty = true ∧ t.mem = s.mem ∧
      SameRegsBut [VF] s t ∧ getV t VF = flagByte coll ∧
      (∀ c r, pixelAt t.fb c r = (pixelAt s.fb c r ^^ spriteCovers (fun k => Memory.get s.mem (s.I.toNat + k)) n.toNat
        (getV s x).toNat (getV s y).toNat (c % 64) (r % 32))) ∧
      (coll = true ↔ ∃ c r, c < 64 ∧ r < 32 ∧ pixelAt s.fb c r = true ∧
        spriteCovers (fun k => Memory.get s.mem (s.I.toNat + k)) n.toNat
          (getV s x).toNat (getV s y).toNat c r = true) := by
  have := n.isLt
  obtain ⟨p, hp, hpix, hcol⟩ := drawRows_ok s.mem (getV s x).toNat n.toNat s.I.toNat (getV s y).toNat s.fb
    (by omega) h
  refine ⟨raiseDirty (setFlag (setFb s p.1) p.2), p.2, by simp only [execDrw, indexAddr, hp], ?_, by simp, by simp,
    ?_, by simp, by simpa using hpix, hcol⟩
  · intro q hq; cases q <;> simp_all [keeps]
  · intro q hq; simp_all [getV_setFlag]

/-- Dxyn with rows that do not fit raises at the first offending address. -/
theorem execDrw_error {s : State} {x y : Reg} {n : Rows} (h0 : 0 < n.toNat) (h : 0x1000 < s.I.toNat + n.toNat) :
    execDrw x y n s = .fault (.boundsError (firstOffence s.I.toNat)) := by
  simp only [execDrw, indexAddr, drawRows_error s.mem _ n.toNat s.I.toNat _ s.fb h0 h, raise]

end Sys2Proof.Machine
end

