-- ==== Sys2Proof/Laws/PerInstr.lean ====
section
/-! SUPPORT. One lemma per constructor for the family LegalWord: an instruction's encoding is a legal word, one that
matches a row of the opcode map (spec/30_encoding.md R95). -/

namespace Sys2Proof.Laws.LegalWord

/-- The encoding of `i` matches a row of the opcode map. -/
def Statement (i : Instr) : Prop := WellFormed.word (encode i) = true

theorem cls : Statement .cls := rfl
theorem ret : Statement .ret := rfl
theorem jp (nnn : Addr) : Statement (.jp nnn) := (word_legal_iff _).2 <| by simp [encode]
theorem call (nnn : Addr) : Statement (.call nnn) := (word_legal_iff _).2 <| by simp [encode]
theorem seImm (x : Reg) (kk : Byte) : Statement (.seImm x kk) := (word_legal_iff _).2 <| by simp [encode]
theorem sneImm (x : Reg) (kk : Byte) : Statement (.sneImm x kk) := (word_legal_iff _).2 <| by simp [encode]
theorem seReg (x y : Reg) : Statement (.seReg x y) := (word_legal_iff _).2 <| by simp [encode]
theorem ldImm (x : Reg) (kk : Byte) : Statement (.ldImm x kk) := (word_legal_iff _).2 <| by simp [encode]
theorem addImm (x : Reg) (kk : Byte) : Statement (.addImm x kk) := (word_legal_iff _).2 <| by simp [encode]
theorem ldReg (x y : Reg) : Statement (.ldReg x y) := (word_legal_iff _).2 <| by simp [encode]
theorem orReg (x y : Reg) : Statement (.orReg x y) := (word_legal_iff _).2 <| by simp [encode]
theorem andReg (x y : Reg) : Statement (.andReg x y) := (word_legal_iff _).2 <| by simp [encode]
theorem xorReg (x y : Reg) : Statement (.xorReg x y) := (word_legal_iff _).2 <| by simp [encode]
theorem addReg (x y : Reg) : Statement (.addReg x y) := (word_legal_iff _).2 <| by simp [encode]
theorem subReg (x y : Reg) : Statement (.subReg x y) := (word_legal_iff _).2 <| by simp [encode]
theorem shr (x y : Reg) : Statement (.shr x y) := (word_legal_iff _).2 <| by simp [encode]
theorem subnReg (x y : Reg) : Statement (.subnReg x y) := (word_legal_iff _).2 <| by simp [encode]
theorem shl (x y : Reg) : Statement (.shl x y) := (word_legal_iff _).2 <| by simp [encode]
theorem sneReg (x y : Reg) : Statement (.sneReg x y) := (word_legal_iff _).2 <| by simp [encode]
theorem ldI (nnn : Addr) : Statement (.ldI nnn) := (word_legal_iff _).2 <| by simp [encode]
theorem jpV0 (nnn : Addr) : Statement (.jpV0 nnn) := (word_legal_iff _).2 <| by simp [encode]
theorem rnd (x : Reg) (kk : Byte) : Statement (.rnd x kk) := (word_legal_iff _).2 <| by simp [encode]
theorem drw (x y : Reg) (n : Rows) : Statement (.drw x y n) := (word_legal_iff _).2 <| by simp [encode]
theorem skp (x : Reg) : Statement (.skp x) := (word_legal_iff _).2 <| by simp [encode]
theorem sknp (x : Reg) : Statement (.sknp x) := (word_legal_iff _).2 <| by simp [encode]
theorem ldVxDT (x : Reg) : Statement (.ldVxDT x) := (word_legal_iff _).2 <| by simp [encode]
theorem ldVxK (x : Reg) : Statement (.ldVxK x) := (word_legal_iff _).2 <| by simp [encode]
theorem ldDTVx (x : Reg) : Statement (.ldDTVx x) := (word_legal_iff _).2 <| by simp [encode]
theorem ldSTVx (x : Reg) : Statement (.ldSTVx x) := (word_legal_iff _).2 <| by simp [encode]
theorem addI (x : Reg) : Statement (.addI x) := (word_legal_iff _).2 <| by simp [encode]
theorem ldF (x : Reg) : Statement (.ldF x) := (word_legal_iff _).2 <| by simp [encode]
theorem ldB (x : Reg) : Statement (.ldB x) := (word_legal_iff _).2 <| by simp [encode]
theorem storeRegs (x : Reg) : Statement (.storeRegs x) := (word_legal_iff _).2 <| by simp [encode]
theorem loadRegs (x : Reg) : Statement (.loadRegs x) := (word_legal_iff _).2 <| by simp [encode]

end Sys2Proof.Laws.LegalWord
end

