-- ==== Sys2Proof/Laws/Step.lean ====
section
/-! SUPPORT. What a step can do, said once: the inversion lemmas of `onNext`, `runStep` and `step`. -/

namespace Sys2Proof.Machine

theorem onNext_eq_next {o : Host.Outcome State Fault Refusal} {f : State → State} {t : State} :
    onNext o f = .next t ↔ ∃ u, o = .next u ∧ t = f u := by
  cases o <;> simp [onNext, eq_comm]

theorem onNext_eq_fault {o : Host.Outcome State Fault Refusal} {f : State → State} {r : Fault} :
    onNext o f = .fault r ↔ o = .fault r := by
  cases o <;> simp [onNext]

theorem onNext_eq_refused {o : Host.Outcome State Fault Refusal} {f : State → State} {r : Refusal} :
    onNext o f = .refused r ↔ o = .refused r := by
  cases o <;> simp [onNext]

/-- A Running step that answers a next state fetched, decoded and executed an instruction. -/
theorem runStep_next {s t : State} (h : runStep s = .next t) :
    ∃ i u, s.pc.toNat ≤ 0xFFE ∧ decode (wordAtPc s) = .ok i ∧ exec i (clearDirty s) = .next u ∧ t = finishStep i u := by
  by_cases hp : s.pc.toNat + 1 < 0x1000
  · simp only [runStep, clearDirty_mem, clearDirty_pc, memReadWord_ok hp] at h
    cases hd : decode (wordAtPc s) with
    | error r => rw [wordAtPc] at hd; simp [hd, raise] at h
    | ok i =>
      rw [wordAtPc] at hd
      simp only [hd, onNext_eq_next] at h
      obtain ⟨u, hu, ht⟩ := h
      exact ⟨i, u, by omega, rfl, hu, ht⟩
  · simp [runStep, memReadWord_error (show 0x1000 ≤ s.pc.toNat + 1 by omega), raise] at h

/-- A step that answers a next state waited for a key or ran an instruction. -/
theorem step_next {s t : State} (h : step s = .next t) :
    s.fault = none ∧
      ((∃ r, s.execState = .waitingForKey r ∧ t = presentNext (waitStep r s)) ∨
       (s.execState = .running ∧ ∃ i u, s.pc.toNat ≤ 0xFFE ∧ decode (wordAtPc s) = .ok i ∧
          exec i (clearDirty s) = .next u ∧ t = presentNext (finishStep i u))) := by
  rw [step, onNext_eq_next] at h
  obtain ⟨v, hv, ht⟩ := h
  unfold coreStep at hv
  split at hv
  · simp [raise] at hv
  · rename_i hf
    refine ⟨hf, ?_⟩
    split at hv
    · rename_i r hr
      simp only [Host.Outcome.next.injEq] at hv
      exact .inl ⟨r, hr, by rw [ht, hv]⟩
    · rename_i hr
      obtain ⟨i, u, h1, h2, h3, h4⟩ := runStep_next hv
      exact .inr ⟨hr, i, u, h1, h2, h3, by rw [ht, h4]⟩

end Sys2Proof.Machine
end

