-- ==== Sys2Proof/Tests/Slice0.lean ====
section
/-! SUPPORT. Tests: words written out from spec/30_encoding.md R95, ill-formed terms refused, one-step vectors of
spec/95_test_vectors.md (named by their ids; their expected values are the spec's), and a witness for the hypotheses of
every obligation that has some. -/

namespace Sys2Proof.Tests

open Sys2Proof Sys2Proof.Machine

/-! ### Decoding: each word written out bit by bit as `op x y n` or `op x kk` or `op nnn` (R91, R92, R95) -/

theorem test_decode_cls : decode 0b0000_0000_1110_0000 = .ok .cls := by decide
theorem test_decode_ret : decode 0b0000_0000_1110_1110 = .ok .ret := by decide
theorem test_decode_jp : decode 0b0001_1010_1011_1100 = .ok (.jp 0xABC) := by decide
theorem test_decode_call : decode 0b0010_0011_0000_0001 = .ok (.call 0x301) := by decide
theorem test_decode_seImm : decode 0b0011_0010_0001_0000 = .ok (.seImm 2 0x10) := by decide
theorem test_decode_sneImm : decode 0b0100_1111_1000_0001 = .ok (.sneImm 15 0x81) := by decide
theorem test_decode_seReg : decode 0b0101_0001_0010_0000 = .ok (.seReg 1 2) := by decide
theorem test_decode_ldImm : decode 0b0110_1010_0010_1010 = .ok (.ldImm 10 0x2A) := by decide
theorem test_decode_addImm : decode 0b0111_0011_0010_0000 = .ok (.addImm 3 0x20) := by decide
theorem test_decode_ldReg : decode 0b1000_0001_0010_0000 = .ok (.ldReg 1 2) := by decide
theorem test_decode_orReg : decode 0b1000_0001_0010_0001 = .ok (.orReg 1 2) := by decide
theorem test_decode_andReg : decode 0b1000_0001_0010_0010 = .ok (.andReg 1 2) := by decide
theorem test_decode_xorReg : decode 0b1000_0001_0010_0011 = .ok (.xorReg 1 2) := by decide
theorem test_decode_addReg : decode 0b1000_0001_0010_0100 = .ok (.addReg 1 2) := by decide
theorem test_decode_subReg : decode 0b1000_0001_0010_0101 = .ok (.subReg 1 2) := by decide
theorem test_decode_shr : decode 0b1000_0001_0010_0110 = .ok (.shr 1 2) := by decide
theorem test_decode_subnReg : decode 0b1000_0001_0010_0111 = .ok (.subnReg 1 2) := by decide
theorem test_decode_shl : decode 0b1000_0001_0010_1110 = .ok (.shl 1 2) := by decide
theorem test_decode_sneReg : decode 0b1001_0001_0010_0000 = .ok (.sneReg 1 2) := by decide
theorem test_decode_ldI : decode 0b1010_0010_1111_0000 = .ok (.ldI 0x2F0) := by decide
theorem test_decode_jpV0 : decode 0b1011_0011_0000_0100 = .ok (.jpV0 0x304) := by decide
theorem test_decode_rnd : decode 0b1100_0011_0000_1111 = .ok (.rnd 3 0x0F) := by decide
theorem test_decode_drw : decode 0b1101_0001_0010_0101 = .ok (.drw 1 2 5) := by decide
theorem test_decode_skp : decode 0b1110_0001_1001_1110 = .ok (.skp 1) := by decide
theorem test_decode_sknp : decode 0b1110_0001_1010_0001 = .ok (.sknp 1) := by decide
theorem test_decode_ldVxDT : decode 0b1111_0010_0000_0111 = .ok (.ldVxDT 2) := by decide
theorem test_decode_ldVxK : decode 0b1111_0001_0000_1010 = .ok (.ldVxK 1) := by decide
theorem test_decode_ldDTVx : decode 0b1111_0011_0001_0101 = .ok (.ldDTVx 3) := by decide
theorem test_decode_ldSTVx : decode 0b1111_0100_0001_1000 = .ok (.ldSTVx 4) := by decide
theorem test_decode_addI : decode 0b1111_0010_0001_1110 = .ok (.addI 2) := by decide
theorem test_decode_ldF : decode 0b1111_0100_0010_1001 = .ok (.ldF 4) := by decide
theorem test_decode_ldB : decode 0b1111_0101_0011_0011 = .ok (.ldB 5) := by decide
theorem test_decode_storeRegs : decode 0b1111_0110_0101_0101 = .ok (.storeRegs 6) := by decide
theorem test_decode_loadRegs : decode 0b1111_0111_0110_0101 = .ok (.loadRegs 7) := by decide

/-- The encoder writes the high byte at the lower address (R102). -/
theorem test_encode_bytes : encodeBytes (.drw 10 11 5) = [0xDA, 0xB5] := by decide

/-- The decoder leaves the bytes after the instruction. -/
theorem test_decode_bytes : decodeBytes [0x12, 0x0C, 0x77] = .ok (.jp 0x20C, [0x77]) := by decide

theorem test_decode_truncated : decodeBytes [0x12] = .error .truncated := by decide

/-! ### Well-formedness: an ill-formed term for each check -/

theorem test_illegal_group0 : WellFormed.word 0x00FF = false := by decide
theorem test_illegal_zero : WellFormed.word 0x0000 = false := by decide
theorem test_illegal_group5 : WellFormed.word 0x5121 = false := by decide
theorem test_illegal_group8 : WellFormed.word 0x8128 = false := by decide
theorem test_illegal_group9 : WellFormed.word 0x912F = false := by decide
theorem test_illegal_groupE : WellFormed.word 0xE19F = false := by decide
theorem test_illegal_groupF : WellFormed.word 0xF175 = false := by decide
theorem test_legal_word : WellFormed.word 0xF165 = true := by decide
theorem test_rom_too_long : WellFormed.rom (List.replicate 3585 0) = false := by
  rw [WellFormed.rom, List.length_replicate]; decide
theorem test_rom_fits : WellFormed.rom (List.replicate 3584 0) = true := by
  rw [WellFormed.rom, List.length_replicate]; decide
theorem test_memory_unordered : Memory.wf [(0x301, 1), (0x300, 1)] = false := by decide
theorem test_memory_default_entry : Memory.wf [(0x300, 0)] = false := by decide
theorem test_memory_outside : Memory.wf [(0x1000, 1)] = false := by decide

/-! ### One step -/

/-- The reset state with no key latched and the random byte 0xB7. -/
def base : State := { State.reset with key := none, rnd := 0xB7 }

/-- `base` with the value `v` in V[x] and `w` in V[y]. -/
def regs (x : Reg) (v : Byte) (y : Reg) (w : Byte) : State := setV (setV base x v) y w

/-- `s` with `I = i` and the bytes `bs` at 0x300 on. -/
def dataAt (i : Word) (bs : List Byte) (s : State) : State :=
  match memWriteBytes s.mem 0x300 bs with
  | .ok m => { s with I := i, mem := m }
  | .error _ => s

/-- What `f` reads in the state after one step on the word `w` placed at the pc of `s`. -/
def after {α : Type} (s : State) (w : Nat) (f : State → α) : Option α :=
  match step (s.withFetchWord 16 w) with
  | .next t => some (f t)
  | _ => none

/-- The fault of an outcome. -/
def faultIn (o : Host.Outcome State Fault Refusal) : Option Fault :=
  match o with
  | .fault f => some f
  | _ => none

/-- The fault of one step on the word `w` placed at the pc of `s`. -/
def faults (s : State) (w : Nat) : Option Fault := faultIn (step (s.withFetchWord 16 w))

/-- T-DP-1 (one pixel of it). -/
theorem test_cls : after { base with fb := setPixel blankFb 63 31 true } 0x00E0
    (fun t => (pixel t 63 31, t.dirty, t.pc)) = some (false, true, 0x202) := by decide

/-- T-CF-5. -/
theorem test_ret : after { base with pc := 0x300, sp := 1, stack := base.stack.set 0 0x204 } 0x00EE
    (fun t => (t.sp, t.pc, t.stack[0])) = some (0, 0x206, 0x204) := by decide

/-- T-CF-9. -/
theorem test_ret_empty : faults base 0x00EE = some (.boundsError 0x00FF) := by decide

/-- T-CF-2: the jump to itself; only the timers move. -/
theorem test_jp : after { base with DT := 3 } 0x1200 (fun t => (t.pc, t.DT)) = some (0x200, 2) := by decide

/-- T-CF-7. -/
theorem test_call : after { base with sp := 15 } 0x2400 (fun t => (t.sp, t.stack[15], t.pc)) =
    some (16, 0x200, 0x400) := by decide

/-- T-CF-8. -/
theorem test_call_full : faults { base with sp := 16 } 0x2400 = some (.boundsError 0x0010) := by decide

/-- T-CF-12, T-CF-13. -/
theorem test_seImm : after (regs 3 0x42 0 0) 0x3342 State.pc = some 0x204 ∧
    after (regs 3 0x41 0 0) 0x3342 State.pc = some 0x202 := by decide

/-- T-CF-14, T-CF-15. -/
theorem test_sneImm : after (regs 3 0x41 0 0) 0x4342 State.pc = some 0x204 ∧
    after (regs 3 0x42 0 0) 0x4342 State.pc = some 0x202 := by decide

/-- T-CF-16, T-CF-17. -/
theorem test_seReg : after (regs 1 7 2 7) 0x5120 State.pc = some 0x204 ∧
    after (regs 1 7 2 8) 0x5120 State.pc = some 0x202 := by decide

/-- T-CF-19, T-CF-20. -/
theorem test_sneReg : after (regs 1 7 2 8) 0x9120 State.pc = some 0x204 ∧
    after (regs 1 7 2 7) 0x9120 State.pc = some 0x202 := by decide

/-- T-LA-1. -/
theorem test_ldImm : after base 0x6A2A (fun t => (getV t 10, t.pc)) = some (0x2A, 0x202) := by decide

/-- T-LA-3: the sum wraps and VF keeps its value. -/
theorem test_addImm : after (regs 3 0xF0 15 0x77) 0x7320 (fun t => (getV t 3, getV t 15)) =
    some (0x10, 0x77) := by decide

/-- T-LA-6. -/
theorem test_ldReg : after (regs 2 0x55 0 0) 0x8120 (fun t => getV t 1) = some 0x55 := by decide

/-- T-LA-7. -/
theorem test_orReg : after (setV (regs 1 0xF0 2 0x3C) 15 1) 0x8121 (fun t => (getV t 1, getV t 15)) =
    some (0xFC, 1) := by decide

/-- T-LA-8. -/
theorem test_andReg : after (setV (regs 1 0xF0 2 0x3C) 15 1) 0x8122 (fun t => (getV t 1, getV t 15)) =
    some (0x30, 1) := by decide

/-- T-LA-9. -/
theorem test_xorReg : after (setV (regs 1 0xF0 2 0x3C) 15 1) 0x8123 (fun t => (getV t 1, getV t 15)) =
    some (0xCC, 1) := by decide

/-- T-LA-11, T-LA-13: a sum of exactly 255 has no carry. -/
theorem test_addReg : after (regs 1 0xC8 2 0x64) 0x8124 (fun t => (getV t 1, getV t 15)) = some (0x2C, 1) ∧
    after (regs 1 0xFF 2 0) 0x8124 (fun t => (getV t 1, getV t 15)) = some (0xFF, 0) := by decide

/-- T-LA-15: the destination is VF itself. -/
theorem test_addReg_VF : after (regs 15 0xF0 1 0x20) 0x8F14 (fun t => getV t 15) = some 1 := by decide

/-- T-LA-18, T-LA-19: equal operands clear the flag. -/
theorem test_subReg : after (regs 1 3 2 0x0A) 0x8125 (fun t => (getV t 1, getV t 15)) = some (0xF9, 0) ∧
    after (setV (regs 1 0x33 2 0x33) 15 1) 0x8125 (fun t => (getV t 1, getV t 15)) = some (0, 0) := by decide

/-- T-LA-25: V2 is neither read nor written. -/
theorem test_shr : after (regs 1 5 2 0xEE) 0x8126 (fun t => (getV t 1, getV t 2, getV t 15)) =
    some (2, 0xEE, 1) := by decide

/-- T-LA-28: the shifted value stands. -/
theorem test_shr_VF : after (regs 15 7 0 0) 0x8F06 (fun t => getV t 15) = some 3 := by decide

/-- T-LA-23. -/
theorem test_subnReg : after (regs 1 3 2 0x0A) 0x8127 (fun t => (getV t 1, getV t 15)) = some (7, 1) := by decide

/-- T-LA-29. -/
theorem test_shl : after (regs 1 0x81 2 0xEE) 0x812E (fun t => (getV t 1, getV t 15)) = some (2, 1) := by decide

/-- T-LA-32. -/
theorem test_shl_VF : after (regs 15 0x81 0 0) 0x8F0E (fun t => getV t 15) = some 2 := by decide

/-- T-IM-1. -/
theorem test_ldI : after base 0xA2F0 State.I = some 0x2F0 := by decide

/-- T-CF-11. -/
theorem test_jpV0 : after (regs 0 0xFF 0 0xFF) 0xBFFF State.pc = some 0x10FE := by decide

/-- T-LA-33. -/
theorem test_rnd : after base 0xC30F (fun t => getV t 3) = some 0x07 := by decide

/-- T-DP-5 (three pixels of it): pixel (3,0) goes from set to unset. -/
theorem test_drw_collision : after (dataAt 0x300 [0xF0] { base with fb := setPixel blankFb 3 0 true }) 0xD121
    (fun t => (getV t 15, pixel t 0 0, pixel t 3 0, t.dirty)) = some (1, true, false, true) := by decide

/-- T-DP-7: rows 30, 31 and 0. -/
theorem test_drw_wraps : after (dataAt 0x300 [0x80, 0x80, 0x80] (regs 1 0 2 0x1E)) 0xD123
    (fun t => (getV t 15, pixel t 0 30, pixel t 0 31, pixel t 0 0, pixel t 0 1)) =
    some (0, true, true, true, false) := by decide

/-- T-KT-1, T-KT-6: all 8 bits are compared. -/
theorem test_skp : after { regs 1 7 0 0 with key := some 7 } 0xE19E State.pc = some 0x204 ∧
    after { regs 1 0x17 0 0 with key := some 7 } 0xE19E State.pc = some 0x202 := by decide

/-- T-KT-4, T-KT-5. -/
theorem test_sknp : after { regs 1 7 0 0 with key := some 7 } 0xE1A1 State.pc = some 0x202 ∧
    after (regs 1 7 0 0) 0xE1A1 State.pc = some 0x204 := by decide

/-- T-KT-10. -/
theorem test_ldVxDT : after { base with DT := 8 } 0xF207 (fun t => (getV t 2, t.DT)) = some (8, 7) := by decide

/-- T-KT-7b. -/
theorem test_ldVxK : after { base with pc := 0x204, DT := 9, key := some 5 } 0xF10A
    (fun t => (t.execState, t.DT, t.pc, getV t 1)) = some (.waitingForKey 1, 8, 0x206, 0) := by decide

/-- T-KT-11. -/
theorem test_ldDTVx : after (regs 0 0x0A 0 0x0A) 0xF015 State.DT = some 9 := by decide

/-- T-KT-14. -/
theorem test_ldSTVx : after (regs 0 2 0 2) 0xF018 State.ST = some 1 := by decide

/-- T-IM-2. -/
theorem test_addI : after (dataAt 0xFFE [] (regs 2 5 0 0)) 0xF21E State.I = some 0x1003 := by decide

/-- T-IM-4b. -/
theorem test_ldF : after (regs 4 0xFF 0 0) 0xF429 State.I = some 0x4FB := by decide

/-- T-IM-5. -/
theorem test_ldB : after (dataAt 0x300 [] (regs 0 0xEA 0 0xEA)) 0xF033
    (fun t => [0x300, 0x301, 0x302].map (Memory.get t.mem)) = some [2, 3, 4] := by decide

/-- T-FA-12. -/
theorem test_ldB_fault : faults (dataAt 0xFFE [] base) 0xF033 = some (.boundsError 0x1000) := by decide

/-- R184 with x = 0: V0 is stored, V1 is not, and I keeps its value. -/
theorem test_storeRegs : after (dataAt 0x400 [] (regs 0 1 1 2)) 0xF055
    (fun t => (Memory.get t.mem 0x400, Memory.get t.mem 0x401, t.I)) = some (1, 0, 0x400) := by decide

/-- T-FA-14. -/
theorem test_storeRegs_fault : faults (dataAt 0xFFE [] base) 0xF255 = some (.boundsError 0x1000) := by decide

/-- T-IM-10, with its bytes at 0x300. -/
theorem test_loadRegs : after (dataAt 0x300 [0x0A, 0x0B, 0x0C, 0x0D] (regs 3 0x77 0 0)) 0xF265
    (fun t => ([0, 1, 2, 3].map (getV t), t.I)) = some ([0x0A, 0x0B, 0x0C, 0x77], 0x300) := by decide

/-- T-FA-19. -/
theorem test_loadRegs_fault : faults (dataAt 0xFFFF [] base) 0xFF65 = some (.boundsError 0xFFFF) := by decide

/-- T-FA-1. -/
theorem test_illegal_word : faults base 0x00FF = some (.unknownInstruction 0x00FF) := by decide

/-- T-FA-10. -/
theorem test_fetch_fault : faultIn (step { base with pc := 0xFFF }) = some (.boundsError 0x1000) := by decide

/-- T-FA-11: the last instruction slot. -/
theorem test_last_slot : after { base with pc := 0xFFE } 0x6001 (fun t => (getV t 0, t.pc)) =
    some (1, 0x1000) := by decide

/-! ### Witnesses: states and operands that meet the hypotheses of the obligations -/

/-- `base` about to execute the word `w`. -/
def ready (w : Nat) : State := base.withFetchWord 16 w

/-- `base` waiting for a key for register 1. -/
def waiting : State := { base with execState := .waitingForKey 1, DT := 8 }

/-- The state an outcome holds, or `base`. -/
def nextOr (o : Host.Outcome State Fault Refusal) : State :=
  match o with
  | .next t => t
  | _ => base

theorem witness_EncodeInvertsDecode : decode 0xF165 = .ok (.loadRegs 1) := by decide

theorem witness_OpcodeRowsAreDisjoint : ⟨0xF00F, 0x8006⟩ ∈ WellFormed.opcodeMap ∧
    OpcodeRow.matchesWord ⟨0xF00F, 0x8006⟩ 0x8F56 = true := by decide

/-- One illegal word of each group that has some. -/
theorem witness_RejectedWordsAreTheListedGroups :
    decode 0x00FF = .error (.unknownInstruction 0x00FF) ∧ decode 0x5AB1 = .error (.unknownInstruction 0x5AB1) ∧
    decode 0x83AF = .error (.unknownInstruction 0x83AF) ∧ decode 0x9ABF = .error (.unknownInstruction 0x9ABF) ∧
    decode 0xEA9F = .error (.unknownInstruction 0xEA9F) ∧ decode 0xFA66 = .error (.unknownInstruction 0xFA66) := by
  decide

theorem witness_StepRunsDecodedInstruction : Runs (ready 0x6A2A) (.ldImm 10 0x2A) :=
  ⟨rfl, rfl, by decide, by decide⟩

/-- The highest pc from which a fetch succeeds. -/
theorem witness_StepRunsDecodedInstruction_last :
    Runs ({ base with pc := 0xFFE }.withFetchWord 16 0x6001) (.ldImm 0 1) := ⟨rfl, rfl, by decide, by decide⟩

theorem witness_RunningStep_fetch_fault : { base with pc := 0xFFF }.fault = none ∧
    { base with pc := 0xFFF }.execState = .running ∧ 0xFFE < { base with pc := 0xFFF }.pc.toNat := by decide

theorem witness_RunningStep_illegal : (ready 0x5121).fault = none ∧ (ready 0x5121).execState = .running ∧
    (ready 0x5121).pc.toNat ≤ 0xFFE ∧ decode (wordAtPc (ready 0x5121)) = .error (.unknownInstruction 0x5121) := by decide

theorem witness_RunningStep_exec_fault : (ready 0x00EE).pc.toNat ≤ 0xFFE ∧ decode (wordAtPc (ready 0x00EE)) = .ok .ret ∧
    faultIn (exec .ret { ready 0x00EE with dirty := false }) = some (.boundsError 255) := by decide

theorem witness_RunningStep_next : decode (wordAtPc (ready 0x00E0)) = .ok .cls ∧
    ∃ t, exec .cls { ready 0x00E0 with dirty := false } = .next t := ⟨by decide, _, rfl⟩

theorem witness_RunningStep_next_jump : decode (wordAtPc (ready 0x1FFF)) = .ok (.jp 0xFFF) ∧
    ∃ t, exec (.jp 0xFFF) { ready 0x1FFF with dirty := false } = .next t := ⟨by decide, _, rfl⟩

theorem witness_UnknownInstruction : (ready 0xF175).fault = none ∧ (ready 0xF175).execState = .running ∧
    (ready 0xF175).pc.toNat ≤ 0xFFE ∧ wordAtPc (ready 0xF175) = 0xF175 ∧ WellFormed.word 0xF175 = false ∧
    faultIn (step (ready 0xF175)) = some (.unknownInstruction 0xF175) := by decide

theorem witness_WaitWithoutKeyIsNoOp : waiting.fault = none ∧ waiting.execState = .waitingForKey 1 ∧
    waiting.key = none := by decide

/-- Key 0 is a key, and the register may be VF. -/
theorem witness_WaitWithKeyTakesIt :
    let s : State := { waiting with execState := .waitingForKey 15, key := some 0 }
    s.fault = none ∧ s.execState = .waitingForKey 15 ∧ s.key = some 0 := by decide

theorem witness_FaultedCoreIgnoresSteps :
    (latchFault (.boundsError 255) base).fault = some (.boundsError 255) := by decide

theorem witness_FaultIsLatchedUntilReset : (ready 0x00FF).fault = none ∧
    faultIn (step (ready 0x00FF)) = some (.unknownInstruction 0x00FF) := by decide

theorem witness_StepNeverRefuses : base.fault = none := rfl

theorem witness_ExecFaultsExactlyAsListed : { base with sp := 16 }.sp.toNat ≤ 16 ∧
    faultOf (.call 0x300) { base with sp := 16 } = some (.boundsError 16) := by decide

theorem witness_ExecCompletes : { base with I := 0xFFF }.sp.toNat ≤ 16 ∧
    faultOf (.drw 1 2 1) { base with I := 0xFFF } = none := by decide

theorem witness_ExecWritesOnlyItsAccessRow : ∃ t, exec (.ldDTVx 3) base = .next t := ⟨_, rfl⟩

theorem witness_VFWritten : (∃ t, exec (.ldImm 14 0xFF) base = .next t) ∧ writesVF (.ldImm 14 0xFF) = false :=
  ⟨⟨_, rfl⟩, rfl⟩

theorem witness_DisplayChanged :
    let s := dataAt 0x300 [0x80] (ready 0xD001)
    (∃ t, step s = .next t) ∧ (nextOr (step s)).fb ≠ s.fb := ⟨⟨_, rfl⟩, by decide⟩

theorem witness_MemoryChanged :
    let s : State := { ready 0xF033 with I := 0x300, V := base.V.set 0 7 }
    (∃ t, step s = .next t) ∧ Memory.get (nextOr (step s)).mem 0x302 ≠ Memory.get s.mem 0x302 := ⟨⟨_, rfl⟩, by decide⟩

theorem base_inv : Inv base := ⟨by decide, by decide, by decide, fun _ _ => rfl, rfl, rfl⟩

theorem witness_DirtyExactly_draw : Inv (ready 0xD120) ∧ Runs (ready 0xD120) (.drw 1 2 0) ∧
    ∃ t, step (ready 0xD120) = .next t :=
  ⟨⟨by decide, by decide, by decide, fun _ _ => rfl, rfl, by decide⟩, ⟨rfl, rfl, by decide, by decide⟩, _, rfl⟩

theorem witness_DirtyExactly_wait : Inv waiting ∧ step waiting = .next (presentNext waiting) :=
  ⟨⟨by decide, by decide, by decide, fun _ _ => rfl, rfl, rfl⟩, rfl⟩

theorem witness_ExecutionStateTransitions : Runs (ready 0xF10A) (.ldVxK 1) ∧ (∃ t, step (ready 0xF10A) = .next t) ∧
    (ready 0xF10A).execState = .running := ⟨⟨rfl, rfl, by decide, by decide⟩, ⟨_, rfl⟩, rfl⟩

theorem witness_ExecutionStateTransitions_key : ∃ t, step { waiting with key := some 15 } = .next t := ⟨_, rfl⟩

theorem witness_OnlyRndReads : ∀ x kk, Instr.skp 1 ≠ .rnd x kk := by intro x kk h; cases h

theorem witness_OnlyKeyTestsRead : (∀ x, Instr.ldVxK 1 ≠ .skp x) ∧ (∀ x, Instr.ldVxK 1 ≠ .sknp x) :=
  ⟨fun _ h => (by cases h), fun _ h => (by cases h)⟩

theorem witness_NoInstructionReadsTheSoundTimer : ∀ x, Instr.ldVxDT 1 ≠ .ldSTVx x := by intro x h; cases h

theorem witness_StepKeepsInvariant : Inv (ready 0x2300) ∧ ∃ t, step (ready 0x2300) = .next t :=
  ⟨⟨by decide, by decide, by decide, fun _ _ => rfl, rfl, by decide⟩, _, rfl⟩

theorem witness_BootMeetsInvariant : (List.replicate 3584 (0xFF : Byte)).length ≤ 3584 := by
  rw [List.length_replicate]

theorem witness_BootLoadsTheRom_refused : 3584 < (List.replicate 3585 (0xFF : Byte)).length := by
  rw [List.length_replicate]; decide

theorem witness_BootRunsTheFirstRomWord : ([0x12, 0x00] : List Byte).length ≤ 3584 ∧
    decode (wordOfBytes 0x12 0x00) = .ok (.jp 0x200) := by decide

theorem witness_FaultOutputs : base.fault = none ∧
    (latchFault (.unknownInstruction 0xFF) base).fault = some (.unknownInstruction 0xFF) ∧
    (latchFault (.unimplementedInstruction 0xFF) base).fault = some (.unimplementedInstruction 0xFF) ∧
    (latchFault (.boundsError 0xFF) base).fault = some (.boundsError 0xFF) := by decide

theorem witness_CallPushes : { base with sp := 15 }.sp.toNat < 16 := by decide

theorem witness_ReturnRestoresPc_first : 1 ≤ { base with sp := 1 }.sp.toNat ∧ { base with sp := 1 }.sp.toNat ≤ 16 := by
  decide

theorem witness_ReturnRestoresPc_last : 1 ≤ { base with sp := 16 }.sp.toNat ∧
    { base with sp := 16 }.sp.toNat ≤ 16 := by decide

theorem witness_SkipsOnImmediate : getV (regs 3 0x42 0 0) 3 = 0x42 ∧ getV (regs 3 0x41 0 0) 3 ≠ 0x42 := by decide

theorem witness_SkipsOnRegisters : getV (regs 1 7 2 7) 1 = getV (regs 1 7 2 7) 2 ∧
    getV (regs 1 7 2 8) 1 ≠ getV (regs 1 7 2 8) 2 ∧ fieldOp 0x5AB1 = 5 ∧ fieldN 0x5AB1 ≠ 0 ∧ fieldOp 0x9ABF = 9 := by
  decide

theorem witness_flag_instructions : (14 : Reg) ≠ VF := by decide

/-- The highest I for which Fx33 succeeds, and the next one. -/
theorem witness_BcdStoresThreeDigits : { base with I := 0xFFD }.I.toNat + 2 ≤ 0xFFF ∧
    0xFFF < { base with I := 0xFFE }.I.toNat + 2 := by decide

/-- The highest I for which a range of all sixteen registers fits, and the next one (Fx55 and Fx65). -/
theorem witness_RegistersStored : { base with I := 0xFF0 }.I.toNat + (15 : Reg).toNat ≤ 0xFFF ∧
    0xFFF < { base with I := 0xFF1 }.I.toNat + (15 : Reg).toNat := by decide

theorem witness_RegistersLoaded : (3 : Reg).toNat ≤ (3 : Reg).toNat ∧ (3 : Reg).toNat < (4 : Reg).toNat := by decide

theorem witness_StoreThenLoadRoundTrips :
    let s : State := { base with I := 0x400 }
    ∃ t, exec (.storeRegs 2) s = .next t ∧ t.mem = t.mem ∧ t.I = t.I := ⟨_, rfl, rfl, rfl⟩

/-- The last row that fits, no row at an address outside memory, and the first row that does not fit. -/
theorem witness_SpriteDrawn : { base with I := 0xFFF }.I.toNat + (1 : Rows).toNat - 1 ≤ 0xFFF ∧
    (0 : Rows).toNat = 0 ∧ 1 ≤ (2 : Rows).toNat ∧ 0xFFF < { base with I := 0xFFF }.I.toNat + (2 : Rows).toNat - 1 := by
  decide

/-- A draw that sets a pixel, and the state it leaves, draw the second time. -/
theorem witness_DrawTwice :
    let s := dataAt 0x300 [0xC0] base
    (∃ t, exec (.drw 1 2 1) s = .next t ∧ getV t 1 = getV s 1 ∧ getV t 2 = getV s 2) ∧
      pixel s 0 0 = false ∧ pixel (nextOr (exec (.drw 1 2 1) s)) 0 0 = true :=
  ⟨⟨_, rfl, rfl, rfl⟩, by decide, by decide⟩

/-- T-DP-13: glyph 0 at (8,2) sets 14 pixels. -/
theorem witness_DrawOnClearDisplay :
    let s := regs 0 8 1 2
    (∀ c r, pixel s c r = false) ∧ (∃ t, exec (.drw 0 1 5) s = .next t) ∧
      litPixels (nextOr (exec (.drw 0 1 5) s)).fb = 14 :=
  ⟨fun c r => by simp [pixel, pixelAt, regs, base, setV, State.reset, blankFb], ⟨_, rfl⟩, by decide⟩

theorem witness_SkipsOnKey :
    (∃ k, { regs 1 15 0 0 with key := some 15 }.key = some k ∧
      k.toNat = (getV { regs 1 15 0 0 with key := some 15 } 1).toNat) ∧
    ¬ ∃ k, base.key = some k ∧ k.toNat = (getV base 1).toNat :=
  ⟨⟨15, by decide, by decide⟩, fun ⟨_, h, _⟩ => by cases h⟩

end Sys2Proof.Tests
end

section
/-! PROOFS for spec/10_state.md R30, R31. The frame of every instruction (the write side of the access table R41), from
which the transitions of the execution state and the life of the dirty flag follow; and that every instruction runs
alike from either value of the dirty flag. -/

namespace Sys2Proof.Machine

/-! ### What each instruction leaves unchanged -/

theorem with_V_sameBut (s : State) (v : Vector Byte 16) : SameBut [.V] s { s with V := v } := by
  intro p hp; cases p <;> simp_all [keeps]

theorem with_fb_dirty_sameBut (s : State) (fb : Framebuffer) (b : Bool) :
    SameBut [.fb, .dirty] s { s with fb := fb, dirty := b } := by
  intro p hp; cases p <;> simp_all [keeps, getV]

theorem with_pc_stack_sameBut (s : State) (pc : Word) (stack : Vector Word 16) (sp : Byte) :
    SameBut [.pc, .stack] s { s with pc := pc, stack := stack, sp := sp } := by
  intro p hp; cases p <;> simp_all [keeps, getV]

theorem setDT_sameBut (s : State) (v : Byte) : SameBut [.DT] s (setDT s v) := by
  intro p hp; cases p <;> simp_all [keeps]

theorem setST_sameBut (s : State) (v : Byte) : SameBut [.ST] s (setST s v) := by
  intro p hp; cases p <;> simp_all [keeps]

theorem setExecState_sameBut (s : State) (e : ExecState) : SameBut [.execState] s (setExecState s e) := by
  intro p hp; cases p <;> simp_all [keeps]

theorem setMem_sameBut (s : State) (m : List Host.Cell) : SameBut [.mem] s (setMem s m) := by
  intro p hp; cases p <;> simp_all [keeps]

/-- A frame of the state an outcome was built from is a frame of the state it answers. -/
theorem SameBut.of_next {ps : List Piece} {s t u : State}
    (hu : SameBut ps s u) (h : (.next u : Host.Outcome State Fault Refusal) = .next t) : SameBut ps s t := by
  cases h; exact hu

theorem execCall_sameBut {nnn : Addr} {s t : State} (h : execCall nnn s = .next t) :
    SameBut [.pc, .stack] s t := by
  by_cases hsp : s.sp.toNat < 16
  · rw [execCall_ok nnn hsp] at h
    exact (with_pc_stack_sameBut s _ _ _).of_next h
  · rw [execCall_error nnn (Nat.not_lt.1 hsp)] at h
    cases h

theorem execRet_sameBut {s t : State} (h : execRet s = .next t) : SameBut [.pc, .stack] s t := by
  by_cases h0 : s.sp = 0
  · rw [execRet_empty h0] at h
    cases h
  by_cases hsp : s.sp.toNat - 1 < 16
  · rw [execRet_ok h0 hsp] at h
    exact (with_pc_stack_sameBut s _ _ _).of_next h
  · rw [execRet, popToPc_high (by omega)] at h
    cases h

theorem storeAtIndex_sameBut {bs : List Byte} {s t : State} (h : storeAtIndex s bs = .next t) :
    SameBut [.mem] s t := by
  unfold storeAtIndex at h
  split at h
  · cases h
  · exact (setMem_sameBut s _).of_next h

theorem execLoadRegs_sameBut {x : Reg} {s t : State} (h : execLoadRegs x s = .next t) : SameBut [.V] s t := by
  by_cases hfit : s.I.toNat + x.toNat ≤ 0xFFF
  · obtain ⟨u, hu, hframe, -⟩ := execLoadRegs_ok hfit
    exact hframe.of_next (hu.symm.trans h)
  · rw [execLoadRegs_error (Nat.not_le.1 hfit)] at h
    cases h

/-- A draw that completes, with or without rows, changes VF and the display, and raises the dirty flag. -/
theorem execDrw_next {x y : Reg} {n : Rows} {s t : State} (h : execDrw x y n s = .next t) :
    SameBut [.V, .fb, .dirty] s t ∧ t.dirty = true := by
  by_cases hfit : n.toNat = 0 ∨ s.I.toNat + n.toNat ≤ 0x1000
  · obtain ⟨u, -, hu, hframe, hdirty, -⟩ := execDrw_ok (x := x) (y := y) hfit
    cases hu.symm.trans h
    exact ⟨hframe, hdirty⟩
  · rw [execDrw_error (by omega) (by omega)] at h
    cases h

/-- An instruction that completes changes no piece of state that its row of the access table does not mark as written
(spec/10_state.md R41). -/
theorem exec_sameBut_writtenBy {i : Instr} {s t : State} (h : exec i s = .next t) : SameBut (writtenBy i) s t := by
  cases i with
  | cls => exact (with_fb_dirty_sameBut s _ _).of_next h
  | ret => exact execRet_sameBut h
  | call => exact execCall_sameBut h
  | jp | jpV0 => exact (jumpTo_sameBut _ s).of_next h
  | seImm | sneImm | seReg | sneReg | skp | sknp => exact (skipIf_sameBut _ s).of_next h
  | ldImm | addImm | ldReg | orReg | andReg | xorReg | addReg | subReg | shr | subnReg | shl | rnd | ldVxDT =>
    exact (with_V_sameBut s _).of_next h
  | ldI | addI | ldF => exact (setI_sameBut s _).of_next h
  | drw => exact (execDrw_next h).1
  | ldVxK => exact (setExecState_sameBut s _).of_next h
  | ldDTVx => exact (setDT_sameBut s _).of_next h
  | ldSTVx => exact (setST_sameBut s _).of_next h
  | ldB | storeRegs => exact storeAtIndex_sameBut h
  | loadRegs => exact execLoadRegs_sameBut h

/-! ### The execution state and the dirty flag after an instruction -/

theorem dirty_mem_writtenBy_iff (i : Instr) :
    Piece.dirty ∈ writtenBy i ↔ i = .cls ∨ ∃ x y n, i = .drw x y n := by
  cases i <;> simp [writtenBy]

theorem execState_mem_writtenBy_iff (i : Instr) : Piece.execState ∈ writtenBy i ↔ ∃ x, i = .ldVxK x := by
  cases i <;> simp [writtenBy]

/-- From a clear dirty flag, an instruction leaves it raised exactly when it is 00E0 or Dxyn. -/
theorem exec_dirty_iff {i : Instr} {s t : State} (h : exec i s = .next t) (hs : s.dirty = false) :
    t.dirty = true ↔ i = .cls ∨ ∃ x y n, i = .drw x y n := by
  by_cases hi : Piece.dirty ∈ writtenBy i
  · have hdirty : t.dirty = true := by
      obtain rfl | ⟨x, y, n, rfl⟩ := (dirty_mem_writtenBy_iff i).1 hi
      · cases h; rfl
      · exact (execDrw_next h).2
    exact iff_of_true hdirty ((dirty_mem_writtenBy_iff i).1 hi)
  · have hkept : t.dirty = s.dirty := exec_sameBut_writtenBy h .dirty hi
    exact iff_of_false (by simp [hkept, hs]) (mt (dirty_mem_writtenBy_iff i).2 hi)

theorem exec_ldVxK_execState {x : Reg} {s t : State} (h : exec (.ldVxK x) s = .next t) :
    t.execState = .waitingForKey x := by
  cases h; rfl

/-- Every instruction but Fx0A keeps the execution state. -/
theorem exec_execState {i : Instr} {s t : State} (h : exec i s = .next t) (hi : ¬ ∃ x, i = .ldVxK x) :
    t.execState = s.execState :=
  exec_sameBut_writtenBy h .execState (mt (execState_mem_writtenBy_iff i).1 hi)

/-! ### The steps of the two execution states -/

/-- A step executes one instruction only. -/
theorem Runs.unique {s : State} {i j : Instr} (hi : Runs s i) (hj : Runs s j) : i = j :=
  Except.ok.inj (hi.decodes.symm.trans hj.decodes)

theorem step_of_running {s : State} (hf : s.fault = none) (hr : s.execState = .running) :
    step s = onNext (runStep s) presentNext := by simp only [step, coreStep, hf, hr]

/-- A Running step that answers a next state ran an instruction from a clear dirty flag, and ends with the execution
state and the dirty flag that instruction left. -/
theorem step_running {s t : State} (h : step s = .next t) (hr : s.execState = .running) :
    ∃ i u, Runs s i ∧ exec i (clearDirty s) = .next u ∧ t.execState = u.execState ∧ t.dirty = u.dirty := by
  obtain ⟨hf, ⟨r, hw, -⟩ | ⟨-, i, u, hpc, hd, hu, rfl⟩⟩ := step_next h
  · rw [hr] at hw; cases hw
  · exact ⟨i, u, ⟨hf, hr, hpc, hd⟩, hu, by simp, by simp⟩

/-- A step in WaitingForKey that answers a next state is the wait step. -/
theorem step_waiting {s t : State} {r : Reg} (h : step s = .next t) (hw : s.execState = .waitingForKey r) :
    t = presentNext (waitStep r s) := by
  obtain ⟨-, ⟨q, hq, rfl⟩ | ⟨hr, -⟩⟩ := step_next h
  · cases hw.symm.trans hq; rfl
  · rw [hr] at hw; cases hw

theorem waitStep_no_key {r : Reg} {s : State} (hk : s.key = none) : waitStep r s = s := by simp [waitStep, hk]

theorem waitStep_key {r : Reg} {s : State} {k : Key} (hk : s.key = some k) :
    waitStep r s = setExecState (setV s r (keyByte k)) .running := by simp [waitStep, hk]

@[simp] theorem waitStep_dirty (r : Reg) (s : State) : (waitStep r s).dirty = s.dirty := by
  cases hk : s.key with
  | none => rw [waitStep_no_key hk]
  | some k => rw [waitStep_key hk]; simp

/-! ### No instruction reads the dirty flag -/

theorem clearDirty_with_dirty (s : State) (b : Bool) : clearDirty { s with dirty := b } = clearDirty s := rfl

theorem runStep_with_dirty (s : State) (b : Bool) : runStep { s with dirty := b } = runStep s := rfl

theorem clearDirty_skipIf (c : Bool) (s : State) : clearDirty (skipIf c s) = skipIf c (clearDirty s) := by
  cases c <;> rfl

theorem pushWord_clearDirty (s : State) (w : Word) : pushWord (clearDirty s) w = (pushWord s w).map clearDirty := by
  by_cases h : s.sp.toNat < 16
  · rw [pushWord_ok h, pushWord_ok (s := clearDirty s) h]; rfl
  · rw [pushWord_error (Nat.not_lt.1 h), pushWord_error (s := clearDirty s) (Nat.not_lt.1 h)]; rfl

theorem popToPc_clearDirty (s : State) : popToPc (clearDirty s) = (popToPc s).map clearDirty := by
  by_cases h0 : s.sp = 0
  · rw [popToPc_empty h0, popToPc_empty (s := clearDirty s) h0]; rfl
  by_cases h : s.sp.toNat - 1 < 16
  · rw [popToPc_ok h0 h, popToPc_ok (s := clearDirty s) h0 h]; rfl
  · have hhigh : 16 < s.sp.toNat := by omega
    rw [popToPc_high hhigh, popToPc_high (s := clearDirty s) hhigh]; rfl

theorem loadRegsFrom_clearDirty (count : Nat) : ∀ (s : State) (addr k : Nat),
    loadRegsFrom (clearDirty s) addr k count = (loadRegsFrom s addr k count).map clearDirty := by
  induction count with
  | zero => intro s addr k; rfl
  | succ count ih =>
    intro s addr k
    simp only [loadRegsFrom, clearDirty_mem]
    cases memRead s.mem addr with
    | error f => rfl
    | ok b => exact ih (setV s (regOfNat k) b) (addr + 1) (k + 1)

theorem orRaise_map (e : Except Fault State) (f : State → State) : orRaise (e.map f) = onNext (orRaise e) f := by
  cases e <;> rfl

theorem onNext_onNext (o : Host.Outcome State Fault Refusal) (f g : State → State) :
    onNext (onNext o f) g = onNext o (g ∘ f) := by
  cases o <;> rfl

/-- Up to the dirty flag of the state it answers, an instruction does the same from a clear dirty flag as from any
other. -/
theorem exec_clearDirty (i : Instr) (s : State) :
    onNext (exec i (clearDirty s)) clearDirty = onNext (exec i s) clearDirty := by
  cases i with
  | cls | jp | jpV0 | ldImm | addImm | ldReg | orReg | andReg | xorReg | addReg | subReg | shr | subnReg | shl | ldI
  | rnd | ldVxDT | ldVxK | ldDTVx | ldSTVx | addI | ldF => rfl
  | seImm | sneImm | seReg | sneReg | skp | sknp =>
    exact congrArg Host.Outcome.next ((clearDirty_skipIf _ _).trans (clearDirty_skipIf _ s).symm)
  | call nnn =>
    simp only [exec, execCall, clearDirty_pc, pushWord_clearDirty, orRaise_map, onNext_onNext]
    rfl
  | ret =>
    simp only [exec, execRet, popToPc_clearDirty, orRaise_map, onNext_onNext]
    rfl
  | loadRegs x =>
    simp only [exec, execLoadRegs, indexAddr, clearDirty_I, loadRegsFrom_clearDirty, orRaise_map, onNext_onNext]
    rfl
  | drw x y n =>
    simp only [exec, execDrw, indexAddr, clearDirty_mem, clearDirty_I, clearDirty_fb, getV_clearDirty]
    split <;> rfl
  | ldB | storeRegs =>
    simp only [exec, execLdB, execStoreRegs, storeAtIndex, indexAddr, regsUpTo, clearDirty_mem, clearDirty_I,
      getV_clearDirty]
    split <;> rfl

/-! ### The statements -/

/-- Settles O21: after a step the dirty flag is the one the executed instruction left from a clear one, and only 00E0
and Dxyn write it; a wait step keeps it, and it is clear there by the invariant. -/
theorem dirtyExactlyAfterClearOrDraw : Obligations.DirtyExactlyAfterClearOrDraw := by
  unfold Obligations.DirtyExactlyAfterClearOrDraw
  refine ⟨fun s t hinv h => ?_, fun s b hf hr => ?_, fun i s b => ?_⟩
  · cases hs : s.execState with
    | waitingForKey r =>
      have hclear : t.dirty = false := by simp [step_waiting h hs, hinv.wait_clean r hs]
      refine ⟨iff_of_false (by simp [hclear]) ?_, fun _ _ => hclear⟩
      rintro ⟨i, hi, -⟩
      cases hs.symm.trans hi.running
    | running =>
      obtain ⟨i, u, hi, hu, hexec, hdirty⟩ := step_running h hs
      have hiff : t.dirty = true ↔ i = .cls ∨ ∃ x y n, i = .drw x y n := hdirty ▸ exec_dirty_iff hu rfl
      refine ⟨hiff.trans ⟨fun hc => ⟨i, hi, hc⟩, ?_⟩, fun r hw => ?_⟩
      · rintro ⟨j, hj, hc⟩
        exact hi.unique hj ▸ hc
      · -- Only Fx0A leaves the machine waiting, and it is neither 00E0 nor Dxyn.
        have hk : ∃ x, i = .ldVxK x := by
          by_contra hk
          rw [hexec, exec_execState hu hk, clearDirty_execState, hs] at hw
          cases hw
        obtain ⟨x, rfl⟩ := hk
        simpa using hiff
  · rw [step_of_running hf hr, step_of_running (s := { s with dirty := b }) hf hr, runStep_with_dirty]
  · rw [← exec_clearDirty i { s with dirty := b }, clearDirty_with_dirty, exec_clearDirty]

/-- Settles O22: of the instructions only Fx0A writes the execution state, and a wait step leaves it exactly when a key
is latched. -/
theorem executionStateTransitions : Obligations.ExecutionStateTransitions := by
  unfold Obligations.ExecutionStateTransitions
  refine fun s t h => ⟨fun hr => ?_, fun r hw => ⟨fun hk => ?_, fun hk => ?_⟩⟩
  · obtain ⟨i, u, hi, hu, hexec, -⟩ := step_running h hr
    refine ⟨fun x hx => ?_, fun hno => ?_⟩
    · cases hi.unique hx
      exact hexec.trans (exec_ldVxK_execState hu)
    · have hi' : ¬ ∃ x, i = .ldVxK x := fun ⟨x, hx⟩ => hno ⟨x, hx ▸ hi⟩
      rw [hexec, exec_execState hu hi', clearDirty_execState, hr]
  · rw [step_waiting h hw, waitStep_no_key hk, presentNext_execState, hw]
  · obtain ⟨k, hk⟩ := Option.ne_none_iff_exists'.1 hk
    rw [step_waiting h hw, waitStep_key hk, presentNext_execState, setExecState_execState]

end Sys2Proof.Machine
end

section
/-! PROOFS for spec/40_step_cycle.md R127. The wait step, and the host's presenting of inputs between steps. -/

namespace Sys2Proof.Machine

/-- The host, choosing the inputs of the next step, touches no piece of the core. -/
theorem presentNext_sameBut (s : State) : SameBut [.inputs] s (presentNext s) := by
  intro p hp; cases p <;> simp_all [keeps]

theorem step_of_waiting {s : State} {r : Reg} (hf : s.fault = none) (hw : s.execState = .waitingForKey r) :
    step s = .next (presentNext (waitStep r s)) := by
  simp only [step, coreStep, hf, hw, onNext]

/-- Settles O10: without a key the wait step answers the state itself, so only the host's presenting of the next inputs
is left. -/
theorem waitWithoutKeyIsNoOp : Obligations.WaitWithoutKeyIsNoOp := by
  unfold Obligations.WaitWithoutKeyIsNoOp
  intro s r hf hw hk
  refine ⟨presentNext s, ?_, presentNext_sameBut s⟩
  rw [step_of_waiting hf hw, waitStep_no_key hk]

end Sys2Proof.Machine
end

section
/-! PROOFS for spec/41_control_flow.md R140, R143 to R145. Where the jumps and the skips on an immediate leave `pc`. -/

namespace Sys2Proof.Machine

/-! ### Encodings told apart by their first nibble -/

/-- An instruction whose word has first nibble `op` and is read back has the mask 0xF000 and the match `op` followed by
zeros. -/
theorem encodedAs_of_fieldOp {i : Instr} {pattern : Word} (op : BitVec 4) (hpattern : pattern = formatXK op 0 0)
    (hop : fieldOp (encode i) = op) (hdec : decode (encode i) = .ok i) : EncodedAs i 0xF000 pattern :=
  ⟨hpattern ▸ (and_F000_iff _ op).2 hop, hdec⟩

theorem jp_encodedAs (nnn : Addr) : EncodedAs (.jp nnn) 0xF000 0x1000 :=
  encodedAs_of_fieldOp 0x1 rfl (fieldOp_formatA 0x1 nnn) (by simp [encode, decode])

theorem jpV0_encodedAs (nnn : Addr) : EncodedAs (.jpV0 nnn) 0xF000 0xB000 :=
  encodedAs_of_fieldOp 0xB rfl (fieldOp_formatA 0xB nnn) (by simp [encode, decode])

theorem seImm_encodedAs (x : Reg) (kk : Byte) : EncodedAs (.seImm x kk) 0xF000 0x3000 :=
  encodedAs_of_fieldOp 0x3 rfl (fieldOp_formatXK 0x3 x kk) (by simp [encode, decode])

theorem sneImm_encodedAs (x : Reg) (kk : Byte) : EncodedAs (.sneImm x kk) 0xF000 0x4000 :=
  encodedAs_of_fieldOp 0x4 rfl (fieldOp_formatXK 0x4 x kk) (by simp [encode, decode])

/-! ### Jumps -/

@[simp] theorem addrOperand_toNat (nnn : Addr) : (addrOperand nnn).toNat = nnn.toNat :=
  BitVec.toNat_setWidth_of_le (by decide)

@[simp] theorem byteOperand_toNat (v : Byte) : (byteOperand v).toNat = v.toNat :=
  BitVec.toNat_setWidth_of_le (by decide)

/-- An address of 12 bits and a byte add up without a carry out of the word. -/
theorem addrOperand_add_byteOperand_toNat (nnn : Addr) (v : Byte) :
    (addrOperand nnn + byteOperand v).toNat = nnn.toNat + v.toNat := by
  have hlt : (addrOperand nnn).toNat + (byteOperand v).toNat < 2 ^ 16 := by
    rw [addrOperand_toNat, byteOperand_toNat]
    omega
  rw [BitVec.toNat_add_of_lt hlt, addrOperand_toNat, byteOperand_toNat]

/-- An instruction that sets `pc` itself keeps it to the end of its step. -/
theorem finishStep_pc_of_setsPc {i : Instr} (hi : setsPc i = true) (s : State) : (finishStep i s).pc = s.pc := by
  rw [finishStep_pc, if_pos hi]

theorem exec_jp (nnn : Addr) (s : State) : exec (.jp nnn) s = .next (jumpTo (addrOperand nnn) s) := rfl

theorem exec_jpV0 (nnn : Addr) (s : State) :
    exec (.jpV0 nnn) s = .next (jumpTo (addrOperand nnn + byteOperand (getV s 0)) s) := rfl

/-! ### Skips -/

/-- A skip that is taken ends its step two instructions on, one that is not taken at the next instruction. -/
theorem finishStep_skipIf_pc {i : Instr} (hi : setsPc i = false) (c : Bool) (s : State) :
    (finishStep i (skipIf c s)).pc = if c then s.pc + 4 else s.pc + 2 := by
  cases c with
  | false => simp [hi]
  | true => simp [hi, BitVec.add_assoc]

theorem exec_seImm (x : Reg) (kk : Byte) (s : State) :
    exec (.seImm x kk) s = .next (skipIf (getV s x == kk) s) := rfl

theorem exec_sneImm (x : Reg) (kk : Byte) (s : State) :
    exec (.sneImm x kk) s = .next (skipIf (getV s x != kk) s) := rfl

/-! ### The statements -/

/-- Settles O34: the jump's target is the zero-extended operand, and 1nnn is among the instructions the advance
passes over. -/
theorem jumpSetsPc : Obligations.JumpSetsPc := by
  unfold Obligations.JumpSetsPc
  intro nnn s
  refine ⟨jp_encodedAs nnn, jumpTo (addrOperand nnn) s, exec_jp nnn s, ?_, ?_, jumpTo_sameBut _ s⟩
  · rw [jumpTo_pc, addrOperand_toNat]
  · rw [finishStep_pc_of_setsPc rfl, jumpTo_pc, addrOperand_toNat]

/-- Settles O38: nnn + V0 is at most 0x10FE, so its sum in the 16 bits of `pc` is the sum of the numbers. -/
theorem jumpWithOffsetAddsV0 : Obligations.JumpWithOffsetAddsV0 := by
  unfold Obligations.JumpWithOffsetAddsV0
  intro nnn s
  refine ⟨jpV0_encodedAs nnn, jumpTo (addrOperand nnn + byteOperand (getV s 0)) s, exec_jpV0 nnn s, ?_,
    finishStep_pc_of_setsPc rfl _, jumpTo_sameBut _ s⟩
  rw [jumpTo_pc, addrOperand_add_byteOperand_toNat]

/-- Settles O39: the two instructions skip on opposite conditions, and the step's own advance adds 2 to either. -/
theorem skipsOnImmediate : Obligations.SkipsOnImmediate := by
  unfold Obligations.SkipsOnImmediate
  intro x kk s
  refine ⟨seImm_encodedAs x kk, sneImm_encodedAs x kk, skipIf (getV s x == kk) s, skipIf (getV s x != kk) s,
    exec_seImm x kk s, exec_sneImm x kk s, fun heq => ?_, fun hne => ?_, skipIf_sameBut _ s, skipIf_sameBut _ s⟩
  · rw [finishStep_skipIf_pc rfl, finishStep_skipIf_pc rfl]
    simp [heq]
  · rw [finishStep_skipIf_pc rfl, finishStep_skipIf_pc rfl]
    simp [hne]

end Sys2Proof.Machine
end

section
/-! PROOFS for spec/42_load_alu.md R160 to R167, R169. The loads, the logic instructions and the additions and
subtractions: what a write of V[x], alone or followed by one of VF, answers, and the byte and the flag as numbers. -/

namespace Sys2Proof.Machine

/-! ### Encodings told apart by their first and last nibble -/

/-- An instruction of format XYN whose word is read back has the mask 0xF00F and the match of its first and last
nibble. -/
theorem encodedAs_of_formatXYN {i : Instr} {pattern : Word} {op n : BitVec 4} {x y : Reg}
    (henc : encode i = formatXYN op x y n) (hpattern : pattern = formatXYN op 0 0 n)
    (hdec : decode (formatXYN op x y n) = .ok i) : EncodedAs i 0xF00F pattern := by
  unfold EncodedAs
  rw [henc, hpattern]
  exact ⟨(and_F00F_iff _ op n).2 ⟨fieldOp_formatXYN op x y n, fieldN_formatXYN op x y n⟩, hdec⟩

/-- The words with first nibble 8 are read by group 8 (spec/30_encoding.md R94). -/
theorem decode_formatXYN_8 (x y : Reg) (n : BitVec 4) :
    decode (formatXYN 0x8 x y n) = decodeGroup8 (formatXYN 0x8 x y n) := by
  simp [decode]

/-- An instruction of the group 8xyn has the mask 0xF00F when group 8 reads its word back. -/
theorem encodedAs_of_group8 {i : Instr} {pattern : Word} {n : BitVec 4} {x y : Reg}
    (henc : encode i = formatXYN 0x8 x y n) (hpattern : pattern = formatXYN 0x8 0 0 n)
    (hdec : decodeGroup8 (formatXYN 0x8 x y n) = .ok i) : EncodedAs i 0xF00F pattern :=
  encodedAs_of_formatXYN henc hpattern ((decode_formatXYN_8 x y n).trans hdec)

theorem ldImm_encodedAs (x : Reg) (kk : Byte) : EncodedAs (.ldImm x kk) 0xF000 0x6000 :=
  encodedAs_of_fieldOp 0x6 rfl (fieldOp_formatXK 0x6 x kk) (by simp [encode, decode])

theorem addImm_encodedAs (x : Reg) (kk : Byte) : EncodedAs (.addImm x kk) 0xF000 0x7000 :=
  encodedAs_of_fieldOp 0x7 rfl (fieldOp_formatXK 0x7 x kk) (by simp [encode, decode])

theorem ldReg_encodedAs (x y : Reg) : EncodedAs (.ldReg x y) 0xF00F 0x8000 :=
  encodedAs_of_group8 rfl rfl (by simp [decodeGroup8])

theorem orReg_encodedAs (x y : Reg) : EncodedAs (.orReg x y) 0xF00F 0x8001 :=
  encodedAs_of_group8 rfl rfl (by simp [decodeGroup8])

theorem andReg_encodedAs (x y : Reg) : EncodedAs (.andReg x y) 0xF00F 0x8002 :=
  encodedAs_of_group8 rfl rfl (by simp [decodeGroup8])

theorem xorReg_encodedAs (x y : Reg) : EncodedAs (.xorReg x y) 0xF00F 0x8003 :=
  encodedAs_of_group8 rfl rfl (by simp [decodeGroup8])

theorem addReg_encodedAs (x y : Reg) : EncodedAs (.addReg x y) 0xF00F 0x8004 :=
  encodedAs_of_group8 rfl rfl (by simp [decodeGroup8])

theorem subReg_encodedAs (x y : Reg) : EncodedAs (.subReg x y) 0xF00F 0x8005 :=
  encodedAs_of_group8 rfl rfl (by simp [decodeGroup8])

theorem subnReg_encodedAs (x y : Reg) : EncodedAs (.subnReg x y) 0xF00F 0x8007 :=
  encodedAs_of_group8 rfl rfl (by simp [decodeGroup8])

/-! ### What each instruction writes -/

theorem exec_ldImm (x : Reg) (kk : Byte) (s : State) : exec (.ldImm x kk) s = .next (setV s x kk) := rfl

theorem exec_addImm (x : Reg) (kk : Byte) (s : State) :
    exec (.addImm x kk) s = .next (setV s x (getV s x + kk)) := rfl

theorem exec_ldReg (x y : Reg) (s : State) : exec (.ldReg x y) s = .next (setV s x (getV s y)) := rfl

theorem exec_orReg (x y : Reg) (s : State) :
    exec (.orReg x y) s = .next (setV s x (getV s x ||| getV s y)) := rfl

theorem exec_andReg (x y : Reg) (s : State) :
    exec (.andReg x y) s = .next (setV s x (getV s x &&& getV s y)) := rfl

theorem exec_xorReg (x y : Reg) (s : State) :
    exec (.xorReg x y) s = .next (setV s x (getV s x ^^^ getV s y)) := rfl

theorem exec_addReg (x y : Reg) (s : State) : exec (.addReg x y) s =
    .next (setFlag (setV s x (getV s x + getV s y)) (carryOut (getV s x) (getV s y))) := rfl

theorem exec_subReg (x y : Reg) (s : State) : exec (.subReg x y) s =
    .next (setFlag (setV s x (getV s x - getV s y)) (noBorrow (getV s x) (getV s y))) := rfl

theorem exec_subnReg (x y : Reg) (s : State) : exec (.subnReg x y) s =
    .next (setFlag (setV s x (getV s y - getV s x)) (noBorrow (getV s y) (getV s x))) := rfl

/-! ### A write of V[x], alone or followed by one of VF -/

theorem setV_sameRegsBut (s : State) (x : Reg) (v : Byte) : SameRegsBut [x] s (setV s x v) :=
  fun _ hr => getV_setV_other s v (List.ne_of_not_mem_cons hr)

theorem setV_setsReg (s : State) (x : Reg) (v : Byte) : SetsReg (.next (setV s x v)) s x v.toNat :=
  ⟨setV s x v, rfl, congrArg BitVec.toNat (getV_setV_same s x v), setV_sameRegsBut s x v, setV_sameBut s x v⟩

theorem getV_setFlag_other (s : State) (b : Bool) {r : Reg} (h : r ≠ VF) : getV (setFlag s b) r = getV s r :=
  getV_setV_other s _ h

/-- The flag is written last, so it stands in VF whatever x is (spec/42_load_alu.md R173 (a)). -/
theorem setFlag_setV_setsRegThenFlag (s : State) (x : Reg) (v : Byte) (b : Bool) :
    SetsRegThenFlag (.next (setFlag (setV s x v) b)) s x v.toNat (flagByte b).toNat := by
  refine ⟨setFlag (setV s x v) b, rfl, fun hx => ?_, ?_, fun r hr => ?_, ?_⟩
  · rw [getV_setFlag_other _ _ hx, getV_setV_same]
  · rw [getV_setFlag_same]
  · obtain ⟨hrx, hrF⟩ : r ≠ x ∧ r ≠ VF := by simpa using hr
    rw [getV_setFlag_other _ _ hrF, getV_setV_other _ _ hrx]
  · exact ((setV_sameBut s x v).trans (setFlag_sameBut _ b)).mono (by simp)

/-! ### Bytes and flags as numbers -/

theorem flagByte_decide_toNat (p : Prop) [Decidable p] : (flagByte (decide p)).toNat = if p then 1 else 0 := by
  by_cases h : p <;> simp [flagByte, h]

theorem flagByte_carryOut_toNat (a b : Byte) :
    (flagByte (carryOut a b)).toNat = if a.toNat + b.toNat > 255 then 1 else 0 := flagByte_decide_toNat _

theorem flagByte_noBorrow_toNat (a b : Byte) :
    (flagByte (noBorrow a b)).toNat = if a.toNat > b.toNat then 1 else 0 := flagByte_decide_toNat _

/-- The wrapping difference of two bytes, with 256 lent before the subtraction. -/
theorem byte_sub_toNat (a b : Byte) : (a - b).toNat = (256 + a.toNat - b.toNat) % 256 := by
  have hb : b.toNat < 256 := b.isLt
  rw [BitVec.toNat_sub, ← Nat.sub_add_comm (Nat.le_of_lt hb)]

theorem setFlag_sub_setsRegThenFlag (s : State) (x : Reg) (a b : Byte) :
    SetsRegThenFlag (.next (setFlag (setV s x (a - b)) (noBorrow a b))) s x ((256 + a.toNat - b.toNat) % 256)
      (if a.toNat > b.toNat then 1 else 0) := by
  rw [← byte_sub_toNat, ← flagByte_noBorrow_toNat]
  exact setFlag_setV_setsRegThenFlag s x (a - b) (noBorrow a b)

/-! ### The statements -/

/-- Settles O41: each of the three is one write of V[x], and the sum of bytes is the sum modulo 256. -/
theorem loadsAndImmediateAdd : Obligations.LoadsAndImmediateAdd := by
  unfold Obligations.LoadsAndImmediateAdd
  intro x y kk s
  refine ⟨ldImm_encodedAs x kk, addImm_encodedAs x kk, ldReg_encodedAs x y, ?_, ?_, ?_⟩
  · rw [exec_ldImm]
    exact setV_setsReg s x kk
  · rw [exec_addImm, ← BitVec.toNat_add]
    exact setV_setsReg s x (getV s x + kk)
  · rw [exec_ldReg]
    exact setV_setsReg s x (getV s y)

/-- Settles O42: each of the three is one write of V[x], whose bits are those of the operation on bytes. -/
theorem logicIsBitwiseWithoutFlag : Obligations.LogicIsBitwiseWithoutFlag := by
  unfold Obligations.LogicIsBitwiseWithoutFlag
  intro x y s
  refine ⟨orReg_encodedAs x y, andReg_encodedAs x y, xorReg_encodedAs x y,
    setV s x (getV s x ||| getV s y), setV s x (getV s x &&& getV s y), setV s x (getV s x ^^^ getV s y),
    exec_orReg x y s, exec_andReg x y s, exec_xorReg x y s, fun b _ => ?_, fun b _ => ?_, fun b _ => ?_,
    setV_sameRegsBut s x _, setV_sameRegsBut s x _, setV_sameRegsBut s x _,
    setV_sameBut s x _, setV_sameBut s x _, setV_sameBut s x _⟩
  · rw [getV_setV_same, BitVec.getLsbD_or]
  · rw [getV_setV_same, BitVec.getLsbD_and]
  · rw [getV_setV_same, BitVec.getLsbD_xor]

/-- Settles O43: V[x] is written with the wrapping sum and then VF with the carry of the exact sum. -/
theorem addSetsCarry : Obligations.AddSetsCarry := by
  unfold Obligations.AddSetsCarry
  intro x y s
  refine ⟨addReg_encodedAs x y, ?_⟩
  rw [exec_addReg, ← BitVec.toNat_add, ← flagByte_carryOut_toNat]
  exact setFlag_setV_setsRegThenFlag s x _ _

/-- Settles O44: the two subtractions are one operation with its operands exchanged. -/
theorem subtractionsSetNoBorrow : Obligations.SubtractionsSetNoBorrow := by
  unfold Obligations.SubtractionsSetNoBorrow
  intro x y s
  refine ⟨subReg_encodedAs x y, subnReg_encodedAs x y, ?_, ?_⟩
  · rw [exec_subReg]
    exact setFlag_sub_setsRegThenFlag s x (getV s x) (getV s y)
  · rw [exec_subnReg]
    exact setFlag_sub_setsRegThenFlag s x (getV s y) (getV s x)

end Sys2Proof.Machine
end

section
/-! PROOFS for spec/43_index_memory.md R180, R182, R183. The loads of `I`, and the decimal digits stored at `I`. -/

namespace Sys2Proof.Machine

/-! ### Encodings told apart by their first nibble and last byte -/

/-- The words with first nibble F are read by group F (spec/30_encoding.md R94). -/
theorem decode_formatXK_F (x : Reg) (kk : Byte) : decode (formatXK 0xF x kk) = decodeGroupF (formatXK 0xF x kk) := by
  simp [decode]

/-- An instruction of the group Fxkk has the mask 0xF0FF and the match of its last byte when group F reads its word
back. -/
theorem encodedAs_of_groupF {i : Instr} {pattern : Word} {x : Reg} {kk : Byte} (henc : encode i = formatXK 0xF x kk)
    (hpattern : pattern = formatXK 0xF 0 kk) (hdec : decodeGroupF (formatXK 0xF x kk) = .ok i) :
    EncodedAs i 0xF0FF pattern := by
  unfold EncodedAs
  rw [henc, hpattern]
  exact ⟨(and_F0FF_iff _ 0xF kk).2 ⟨fieldOp_formatXK 0xF x kk, fieldKk_formatXK 0xF x kk⟩,
    (decode_formatXK_F x kk).trans hdec⟩

theorem ldI_encodedAs (nnn : Addr) : EncodedAs (.ldI nnn) 0xF000 0xA000 :=
  encodedAs_of_fieldOp 0xA rfl (fieldOp_formatA 0xA nnn) (by simp [encode, decode])

theorem ldF_encodedAs (x : Reg) : EncodedAs (.ldF x) 0xF0FF 0xF029 :=
  encodedAs_of_groupF rfl rfl (by simp [decodeGroupF])

theorem ldB_encodedAs (x : Reg) : EncodedAs (.ldB x) 0xF0FF 0xF033 :=
  encodedAs_of_groupF rfl rfl (by simp [decodeGroupF])

/-! ### The index register -/

theorem exec_ldI (nnn : Addr) (s : State) : exec (.ldI nnn) s = .next (setI s (addrOperand nnn)) := rfl

theorem exec_ldF (x : Reg) (s : State) : exec (.ldF x) s = .next (setI s (glyphAddr (getV s x))) := rfl

/-- Five times a byte is at most 1275, so the product fits in the word. -/
@[simp] theorem glyphAddr_toNat (v : Byte) : (glyphAddr v).toNat = 5 * v.toNat := by
  have hlt : 5 * v.toNat < 2 ^ 16 := by omega
  rw [glyphAddr, BitVec.toNat_ofNat, Nat.mod_eq_of_lt hlt]

/-! ### Decimal digits -/

theorem exec_ldB (x : Reg) (s : State) : exec (.ldB x) s = storeAtIndex s (decimalDigits (getV s x)) := rfl

/-- Each of the three bytes holds its digit whole: a digit of a byte is below 10. -/
theorem decimalDigits_toNat (v : Byte) : (decimalDigits v)[0].toNat = v.toNat / 100 ∧
    (decimalDigits v)[1].toNat = v.toNat / 10 % 10 ∧ (decimalDigits v)[2].toNat = v.toNat % 10 :=
  ⟨Nat.mod_eq_of_lt (by omega), Nat.mod_eq_of_lt (by omega), Nat.mod_eq_of_lt (by omega)⟩

/-! ### The statements -/

/-- Settles O47: each of the two is one write of `I`, and neither operand is cut by the 16 bits of `I`. -/
theorem indexLoads : Obligations.IndexLoads := by
  unfold Obligations.IndexLoads
  intro nnn x s
  refine ⟨ldI_encodedAs nnn, ldF_encodedAs x, setI s (addrOperand nnn), setI s (glyphAddr (getV s x)),
    exec_ldI nnn s, exec_ldF x s, ?_, ?_, setI_sameBut s _, setI_sameBut s _⟩
  · rw [setI_I, addrOperand_toNat]
  · rw [setI_I, glyphAddr_toNat]

/-- Settles O49: Fx33 is a store of three bytes at `I`, which fits exactly when I + 2 is an address. -/
theorem bcdStoresThreeDigits : Obligations.BcdStoresThreeDigits := by
  unfold Obligations.BcdStoresThreeDigits
  intro x s
  rw [exec_ldB]
  have hlen : (decimalDigits (getV s x)).length = 3 := decimalDigits_length _
  refine ⟨ldB_encodedAs x, fun hfit => ?_, fun hout => storeAtIndex_error (by omega) (by omega)⟩
  obtain ⟨t, ht, hframe, hbytes, hdigits, -⟩ := storeAtIndex_ok (s := s) (bs := decimalDigits (getV s x)) (by omega)
  obtain ⟨hundreds, tens, ones⟩ := decimalDigits_toNat (getV s x)
  exact ⟨t, ht, (congrArg BitVec.toNat (hdigits 0 (by omega))).trans hundreds,
    (congrArg BitVec.toNat (hdigits 1 (by omega))).trans tens,
    (congrArg BitVec.toNat (hdigits 2 (by omega))).trans ones, hbytes, hframe⟩

end Sys2Proof.Machine
end

section
/-! PROOFS for spec/44_display.md R202. Clearing the display. -/

namespace Sys2Proof.Machine

theorem cls_encodedAs : EncodedAs .cls 0xFFFF 0x00E0 := ⟨by decide, by decide⟩

theorem exec_cls (s : State) : exec .cls s = .next (raiseDirty (clearDisplay s)) := rfl

/-- Every pixel of a state whose display is the blank one is clear. -/
theorem pixel_of_fb_eq_blankFb {s : State} (h : s.fb = blankFb) (x : BitVec 6) (y : BitVec 5) :
    pixel s x y = false := by
  rw [pixel, h, pixelAt_blankFb]

/-- Settles O53: 00E0 replaces the display by the blank one and raises the dirty flag, the two pieces its row of the
access table marks as written. -/
theorem clearBlanksTheDisplay : Obligations.ClearBlanksTheDisplay := by
  unfold Obligations.ClearBlanksTheDisplay
  intro s
  have hfb : (raiseDirty (clearDisplay s)).fb = blankFb := by rw [raiseDirty_fb, clearDisplay_fb]
  exact ⟨cls_encodedAs, raiseDirty (clearDisplay s), exec_cls s, pixel_of_fb_eq_blankFb hfb,
    raiseDirty_dirty _, exec_sameBut_writtenBy (exec_cls s)⟩

end Sys2Proof.Machine
end

section
/-! PROOFS for spec/45_keys_timers.md R223 to R225. The timers read and set, and the tick that follows. -/

namespace Sys2Proof.Machine

/-! ### Encodings -/

theorem ldVxDT_encodedAs (x : Reg) : EncodedAs (.ldVxDT x) 0xF0FF 0xF007 :=
  encodedAs_of_groupF rfl rfl (by simp [decodeGroupF])

theorem ldDTVx_encodedAs (x : Reg) : EncodedAs (.ldDTVx x) 0xF0FF 0xF015 :=
  encodedAs_of_groupF rfl rfl (by simp [decodeGroupF])

theorem ldSTVx_encodedAs (x : Reg) : EncodedAs (.ldSTVx x) 0xF0FF 0xF018 :=
  encodedAs_of_groupF rfl rfl (by simp [decodeGroupF])

/-! ### What execute answers, and the tick -/

theorem exec_ldVxDT (x : Reg) (s : State) : exec (.ldVxDT x) s = .next (setV s x s.DT) := rfl

theorem exec_ldDTVx (x : Reg) (s : State) : exec (.ldDTVx x) s = .next (setDT s (getV s x)) := rfl

theorem exec_ldSTVx (x : Reg) (s : State) : exec (.ldSTVx x) s = .next (setST s (getV s x)) := rfl

/-- The stop at zero (spec/40_step_cycle.md R124) is the truncated subtraction of naturals; above zero the byte does
not wrap. -/
@[simp] theorem countDown_toNat (t : Byte) : (countDown t).toNat = t.toNat - 1 := by
  unfold countDown
  split
  next hzero => rw [hzero]; rfl
  next hpos => bv_omega

/-! ### The statement -/

/-- Settles O59: Fx07 is one write of V[x] with the timer not yet ticked, Fx15 and Fx18 each one write of a timer, which
the step's tick then counts down. -/
theorem timerAccess : Obligations.TimerAccess := by
  unfold Obligations.TimerAccess
  intro x s
  have hread : SetsReg (exec (.ldVxDT x) s) s x s.DT.toNat := by
    rw [exec_ldVxDT]
    exact setV_setsReg s x s.DT
  refine ⟨ldVxDT_encodedAs x, ldDTVx_encodedAs x, ldSTVx_encodedAs x, hread,
    setDT s (getV s x), setST s (getV s x), exec_ldDTVx x s, exec_ldSTVx x s,
    setDT_DT s _, ?_, setST_ST s _, ?_, setDT_sameBut s _, setST_sameBut s _⟩
  · rw [finishStep_DT, setDT_DT, countDown_toNat]
  · rw [finishStep_ST, setST_ST, countDown_toNat]

end Sys2Proof.Machine
end

section
/-! PROOFS for spec/30_encoding.md R94 to R97, R102. The decoder and the encoder are inverse to each other, and the
words the decoder rejects are those that match no row of the opcode map. -/

namespace Sys2Proof

/-! ### Decoding what was encoded -/

theorem decode_formatXYN_5 (x y : Reg) : decode (formatXYN 0x5 x y 0x0) = .ok (.seReg x y) := by
  simp [decode, decodeGroup5]

theorem decode_formatXYN_9 (x y : Reg) : decode (formatXYN 0x9 x y 0x0) = .ok (.sneReg x y) := by
  simp [decode, decodeGroup9]

/-- The words with first nibble E are read by group E (spec/30_encoding.md R94). -/
theorem decode_formatXK_E (x : Reg) (kk : Byte) : decode (formatXK 0xE x kk) = decodeGroupE (formatXK 0xE x kk) := by
  simp [decode]

/-- Every format puts the operands where the dispatch reads them (spec/30_encoding.md R91, R92). -/
theorem decode_encode (i : Instr) : decode (encode i) = .ok i := by
  cases i with
  | cls | ret => rfl
  | jp | call | seImm | sneImm | ldImm | addImm | ldI | jpV0 | rnd | drw => simp [encode, decode]
  | seReg x y => exact decode_formatXYN_5 x y
  | sneReg x y => exact decode_formatXYN_9 x y
  | ldReg | orReg | andReg | xorReg | addReg | subReg | shr | subnReg | shl =>
    exact (Machine.decode_formatXYN_8 _ _ _).trans (by simp [decodeGroup8])
  | skp | sknp => exact (decode_formatXK_E _ _).trans (by simp [decodeGroupE])
  | ldVxDT | ldVxK | ldDTVx | ldSTVx | addI | ldF | ldB | storeRegs | loadRegs =>
    exact (Machine.decode_formatXK_F _ _).trans (by simp [decodeGroupF])

/-! ### Encoding what was decoded -/

/-- A word is the format XYN of its own fields, whatever names the first and the last of them go by. -/
theorem formatXYN_eq {w : Word} {op n : BitVec 4} (hop : fieldOp w = op) (hn : fieldN w = n) :
    formatXYN op (fieldX w) (fieldY w) n = w := by
  rw [← hop, ← hn, formatXYN_fields]

theorem formatXK_eq {w : Word} {op : BitVec 4} {kk : Byte} (hop : fieldOp w = op) (hkk : fieldKk w = kk) :
    formatXK op (fieldX w) kk = w := by
  rw [← hop, ← hkk, formatXK_fields]

theorem formatA_eq {w : Word} {op : BitVec 4} (hop : fieldOp w = op) : formatA op (fieldNnn w) = w := by
  rw [← hop, formatA_fields]

theorem encode_of_decodeGroup0 {w : Word} {i : Instr} (h : decodeGroup0 w = .ok i) : encode i = w := by
  unfold decodeGroup0 at h
  split at h
  next hw => cases h; exact hw.symm
  next =>
    split at h
    next hw => cases h; exact hw.symm
    next => cases h

theorem encode_of_decodeGroup5 {w : Word} {i : Instr} (hop : fieldOp w = 0x5) (h : decodeGroup5 w = .ok i) :
    encode i = w := by
  unfold decodeGroup5 at h
  split at h
  next hn => cases h; exact formatXYN_eq hop hn
  next => cases h

theorem encode_of_decodeGroup9 {w : Word} {i : Instr} (hop : fieldOp w = 0x9) (h : decodeGroup9 w = .ok i) :
    encode i = w := by
  unfold decodeGroup9 at h
  split at h
  next hn => cases h; exact formatXYN_eq hop hn
  next => cases h

theorem encode_of_decodeGroup8 {w : Word} {i : Instr} (hop : fieldOp w = 0x8) (h : decodeGroup8 w = .ok i) :
    encode i = w := by
  unfold decodeGroup8 at h
  split at h
  case h_10 => cases h
  all_goals
    next hn =>
      cases h
      exact formatXYN_eq hop (BitVec.eq_of_toNat_eq hn)

theorem encode_of_decodeGroupE {w : Word} {i : Instr} (hop : fieldOp w = 0xE) (h : decodeGroupE w = .ok i) :
    encode i = w := by
  unfold decodeGroupE at h
  split at h
  next hkk => cases h; exact formatXK_eq hop hkk
  next =>
    split at h
    next hkk => cases h; exact formatXK_eq hop hkk
    next => cases h

theorem encode_of_decodeGroupF {w : Word} {i : Instr} (hop : fieldOp w = 0xF) (h : decodeGroupF w = .ok i) :
    encode i = w := by
  unfold decodeGroupF at h
  repeat' split at h
  all_goals cases h
  all_goals
    next hkk => exact formatXK_eq hop hkk

/-- The values the dispatch tells apart (spec/30_encoding.md R94). -/
theorem nibble_cases (n : BitVec 4) : n = 0x0 ∨ n = 0x1 ∨ n = 0x2 ∨ n = 0x3 ∨ n = 0x4 ∨ n = 0x5 ∨ n = 0x6 ∨ n = 0x7 ∨
    n = 0x8 ∨ n = 0x9 ∨ n = 0xA ∨ n = 0xB ∨ n = 0xC ∨ n = 0xD ∨ n = 0xE ∨ n = 0xF := by
  revert n; decide

/-- A decoded word is the encoding of its instruction: the groups drop no bit of it. -/
theorem encode_of_decode {w : Word} {i : Instr} (h : decode w = .ok i) : encode i = w := by
  unfold decode at h
  rcases nibble_cases (fieldOp w) with
    hop | hop | hop | hop | hop | hop | hop | hop | hop | hop | hop | hop | hop | hop | hop | hop <;> rw [hop] at h
  · exact encode_of_decodeGroup0 h
  · cases h; exact formatA_eq hop
  · cases h; exact formatA_eq hop
  · cases h; exact formatXK_eq hop rfl
  · cases h; exact formatXK_eq hop rfl
  · exact encode_of_decodeGroup5 hop h
  · cases h; exact formatXK_eq hop rfl
  · cases h; exact formatXK_eq hop rfl
  · exact encode_of_decodeGroup8 hop h
  · exact encode_of_decodeGroup9 hop h
  · cases h; exact formatA_eq hop
  · cases h; exact formatA_eq hop
  · cases h; exact formatXK_eq hop rfl
  · cases h; exact formatXYN_eq hop rfl
  · exact encode_of_decodeGroupE hop h
  · exact encode_of_decodeGroupF hop h

/-! ### The rejected words -/

theorem decodeGroup0_rejects_iff (w : Word) :
    decodeGroup0 w = .error (.unknownInstruction w) ↔ w ≠ 0x00E0 ∧ w ≠ 0x00EE := by
  unfold decodeGroup0; split_ifs <;> simp_all

theorem decodeGroup5_rejects_iff (w : Word) : decodeGroup5 w = .error (.unknownInstruction w) ↔ fieldN w ≠ 0 := by
  unfold decodeGroup5; split_ifs <;> simp_all

theorem decodeGroup9_rejects_iff (w : Word) : decodeGroup9 w = .error (.unknownInstruction w) ↔ fieldN w ≠ 0 := by
  unfold decodeGroup9; split_ifs <;> simp_all

theorem decodeGroupE_rejects_iff (w : Word) :
    decodeGroupE w = .error (.unknownInstruction w) ↔ fieldKk w ∉ [0x9E#8, 0xA1#8] := by
  unfold decodeGroupE; split_ifs <;> simp_all

theorem decodeGroupF_rejects_iff (w : Word) : decodeGroupF w = .error (.unknownInstruction w) ↔
    fieldKk w ∉ [0x07#8, 0x0A#8, 0x15#8, 0x18#8, 0x1E#8, 0x29#8, 0x33#8, 0x55#8, 0x65#8] := by
  unfold decodeGroupF; split_ifs <;> simp_all

theorem decodeGroup8_rejects_iff (w : Word) : decodeGroup8 w = .error (.unknownInstruction w) ↔
    fieldN w ∈ [0x8#4, 0x9#4, 0xA#4, 0xB#4, 0xC#4, 0xD#4, 0xF#4] := by
  rcases nibble_cases (fieldN w) with
    hn | hn | hn | hn | hn | hn | hn | hn | hn | hn | hn | hn | hn | hn | hn | hn <;> simp [decodeGroup8, hn]

/-- The words of spec/30_encoding.md R96 that match no row of the opcode map, group by group. -/
def Rejected (w : Word) : Prop :=
  (fieldOp w = 0x0 ∧ w ≠ 0x00E0 ∧ w ≠ 0x00EE) ∨
  (fieldOp w = 0x5 ∧ fieldN w ≠ 0) ∨
  (fieldOp w = 0x8 ∧ fieldN w ∈ [0x8#4, 0x9#4, 0xA#4, 0xB#4, 0xC#4, 0xD#4, 0xF#4]) ∨
  (fieldOp w = 0x9 ∧ fieldN w ≠ 0) ∨
  (fieldOp w = 0xE ∧ fieldKk w ∉ [0x9E#8, 0xA1#8]) ∨
  (fieldOp w = 0xF ∧ fieldKk w ∉ [0x07#8, 0x0A#8, 0x15#8, 0x18#8, 0x1E#8, 0x29#8, 0x33#8, 0x55#8, 0x65#8])

theorem decode_rejects_iff (w : Word) : decode w = .error (.unknownInstruction w) ↔ Rejected w := by
  unfold decode Rejected
  rcases nibble_cases (fieldOp w) with
    hop | hop | hop | hop | hop | hop | hop | hop | hop | hop | hop | hop | hop | hop | hop | hop <;>
    simp [hop, decodeGroup0_rejects_iff, decodeGroup5_rejects_iff, decodeGroup8_rejects_iff, decodeGroup9_rejects_iff,
      decodeGroupE_rejects_iff, decodeGroupF_rejects_iff]

/-- The two words of group 0 are told from every other by their first nibble. -/
theorem ne_of_fieldOp_ne_zero {w : Word} (hop : fieldOp w ≠ 0x0) : w ≠ 0x00E0#16 ∧ w ≠ 0x00EE#16 :=
  ⟨fun h => hop (h ▸ rfl), fun h => hop (h ▸ rfl)⟩

/-- The opcode map and the list of rejected words are complementary. -/
theorem word_illegal_iff (w : Word) : WellFormed.word w = false ↔ Rejected w := by
  rw [← Bool.not_eq_true, word_legal_iff]
  unfold Rejected
  by_cases h0 : fieldOp w = 0x0
  · simp [h0]
  obtain ⟨hcls, hret⟩ := ne_of_fieldOp_ne_zero h0
  by_cases h8 : fieldOp w = 0x8
  · rcases nibble_cases (fieldN w) with
      hn | hn | hn | hn | hn | hn | hn | hn | hn | hn | hn | hn | hn | hn | hn | hn <;> simp [h8, hn, hcls, hret]
  · rcases nibble_cases (fieldOp w) with
      hop | hop | hop | hop | hop | hop | hop | hop | hop | hop | hop | hop | hop | hop | hop | hop <;>
      simp_all

/-- The decoder answers an instruction or rejects the word by name: no other rejection comes from a word. -/
theorem decode_error_eq {w : Word} {r : Reject} (h : decode w = .error r) : r = .unknownInstruction w := by
  unfold decode decodeGroup0 decodeGroup5 decodeGroup8 decodeGroup9 decodeGroupE decodeGroupF at h
  repeat' split at h
  all_goals cases h <;> rfl

theorem decode_error_iff (w : Word) : (∃ r, decode w = .error r) ↔ WellFormed.word w = false := by
  rw [word_illegal_iff, ← decode_rejects_iff]
  exact ⟨fun ⟨r, hr⟩ => decode_error_eq hr ▸ hr, fun h => ⟨_, h⟩⟩

theorem decode_ok_iff (w : Word) : (∃ i, decode w = .ok i) ↔ WellFormed.word w = true := by
  rw [← Bool.not_eq_false, ← decode_error_iff]
  cases decode w <;> simp

/-! ### The rows of the opcode map -/

theorem matchesWord_iff (r : OpcodeRow) (w : Word) : r.matchesWord w = true ↔ w &&& r.mask = r.pattern := by
  simp [OpcodeRow.matchesWord]

/-- Any two rows ask for different bits somewhere under both of their masks. -/
theorem opcodeMap_patterns_differ : ∀ r ∈ WellFormed.opcodeMap, ∀ q ∈ WellFormed.opcodeMap,
    r.pattern &&& q.mask = q.pattern &&& r.mask → r = q := by
  decide

/-! ### The statements -/

/-- Settles O1: every format puts the operands where the dispatch reads them. -/
theorem decodeInvertsEncode : Obligations.DecodeInvertsEncode := by
  unfold Obligations.DecodeInvertsEncode
  exact decode_encode

/-- Settles O2: a word is made of the fields its group reads and the bits its group compares. -/
theorem encodeInvertsDecode : Obligations.EncodeInvertsDecode := by
  unfold Obligations.EncodeInvertsDecode
  exact fun _ _ => encode_of_decode

/-- Settles O3, group by group. -/
theorem rejectedWordsAreTheListedGroups : Obligations.RejectedWordsAreTheListedGroups := by
  unfold Obligations.RejectedWordsAreTheListedGroups
  exact decode_rejects_iff

/-- Settles O4: the words the decoder rejects and those that match no row of the opcode map are the same list. -/
theorem decoderAgreesWithOpcodeMap : Obligations.DecoderAgreesWithOpcodeMap := by
  unfold Obligations.DecoderAgreesWithOpcodeMap
  exact fun w => ⟨(decode_ok_iff w).symm, (word_illegal_iff w).trans (decode_rejects_iff w).symm⟩

/-- Settles O5: a word that matched two rows would make their patterns agree under both masks. -/
theorem opcodeRowsAreDisjoint : Obligations.OpcodeRowsAreDisjoint := by
  unfold Obligations.OpcodeRowsAreDisjoint
  intro w r hr q hq hwr hwq
  rw [matchesWord_iff] at hwr hwq
  apply opcodeMap_patterns_differ r hr q hq
  rw [← hwr, ← hwq, BitVec.and_assoc, BitVec.and_assoc, BitVec.and_comm r.mask]

/-- Settles O6: the decoder is evaluated on the fourteen words. -/
theorem specWordsDecode : Obligations.SpecWordsDecode := by
  unfold Obligations.SpecWordsDecode
  decide

end Sys2Proof
end

section
/-! PROOFS for spec/60_exceptions.md section 9. The outcome of every instruction: the error its list gives it, or a next
state. -/

namespace Sys2Proof.Machine

/-! ### The outcome of an instruction -/

theorem storeAtIndex_fits {s : State} {bs : List Byte} (h : s.I.toNat + bs.length ≤ 0x1000) :
    ∃ t, storeAtIndex s bs = .next t :=
  let ⟨t, ht, _⟩ := storeAtIndex_ok h
  ⟨t, ht⟩

theorem not_of_ite_eq_none {c : Prop} [Decidable c] {f : Fault} (h : (if c then some f else none) = none) : ¬ c :=
  fun hc => by simp [hc] at h

/-- An instruction raises the error the list gives it. Only for 00EE does `sp` have to be legal. -/
theorem exec_of_faultOf_some {i : Instr} {s : State} {f : Fault} (h : faultOf i s = some f) : exec i s = .fault f := by
  cases i with
  | call nnn =>
    obtain ⟨hfull, rfl⟩ := Option.ite_some_none_eq_some.1 h
    exact execCall_error nnn hfull
  | ret =>
    obtain ⟨hempty, rfl⟩ := Option.ite_some_none_eq_some.1 h
    exact execRet_empty (BitVec.eq_of_toNat_eq hempty)
  | ldB | storeRegs =>
    obtain ⟨hout, rfl⟩ := Option.ite_some_none_eq_some.1 h
    exact storeAtIndex_error (by simp) (by simp; omega)
  | loadRegs x =>
    obtain ⟨hout, rfl⟩ := Option.ite_some_none_eq_some.1 h
    exact execLoadRegs_error hout
  | drw x y n =>
    obtain ⟨hout, rfl⟩ := Option.ite_some_none_eq_some.1 h
    exact execDrw_error (by omega) (by omega)
  | cls | jp | seImm | sneImm | seReg | ldImm | addImm | ldReg | orReg | andReg | xorReg | addReg | subReg | shr
  | subnReg | shl | sneReg | ldI | jpV0 | rnd | skp | sknp | ldVxDT | ldVxK | ldDTVx | ldSTVx | addI | ldF =>
    cases h

/-- An instruction the list gives no error answers a next state, 00EE when `sp` is legal. -/
theorem exec_of_faultOf_none {i : Instr} {s : State} (hsp : i = .ret → s.sp.toNat ≤ 16) (h : faultOf i s = none) :
    ∃ t, exec i s = .next t := by
  cases i with
  | call nnn => exact ⟨_, execCall_ok nnn (Nat.not_le.1 (not_of_ite_eq_none h))⟩
  | ret =>
    have hne : s.sp.toNat ≠ 0 := not_of_ite_eq_none h
    have hle : s.sp.toNat ≤ 16 := hsp rfl
    exact ⟨_, execRet_ok (fun h0 => hne (congrArg BitVec.toNat h0)) (by omega)⟩
  | ldB | storeRegs =>
    have hfit := not_of_ite_eq_none h
    exact storeAtIndex_fits (by simp; omega)
  | loadRegs x =>
    obtain ⟨t, ht, -⟩ := execLoadRegs_ok (x := x) (Nat.not_lt.1 (not_of_ite_eq_none h))
    exact ⟨t, ht⟩
  | drw x y n =>
    have hfit := not_of_ite_eq_none h
    obtain ⟨t, -, ht, -⟩ := execDrw_ok (s := s) (x := x) (y := y) (n := n) (by omega)
    exact ⟨t, ht⟩
  | cls | jp | seImm | sneImm | seReg | ldImm | addImm | ldReg | orReg | andReg | xorReg | addReg | subReg | shr
  | subnReg | shl | sneReg | ldI | jpV0 | rnd | skp | sknp | ldVxDT | ldVxK | ldDTVx | ldSTVx | addI | ldF =>
    exact ⟨_, rfl⟩

theorem faultOf_boundsError {i : Instr} {s : State} {f : Fault} (h : faultOf i s = some f) :
    ∃ index, f = .boundsError index := by
  unfold faultOf at h
  repeat' split at h
  all_goals cases h
  all_goals exact ⟨_, rfl⟩

/-- Whatever the state, an instruction answers a next state or raises `BoundsError`: none is refused. -/
theorem exec_next_or_boundsError (i : Instr) (s : State) :
    (∃ t, exec i s = .next t) ∨ ∃ index, exec i s = .fault (.boundsError index) := by
  by_cases hret : i = .ret ∧ 16 < s.sp.toNat
  · obtain ⟨rfl, hhigh⟩ := hret
    exact .inr ⟨_, congrArg orRaise (popToPc_high hhigh)⟩
  cases hf : faultOf i s with
  | none => exact .inl (exec_of_faultOf_none (fun hi => Nat.not_lt.1 fun h => hret ⟨hi, h⟩) hf)
  | some f =>
    obtain ⟨index, rfl⟩ := faultOf_boundsError hf
    exact .inr ⟨index, exec_of_faultOf_some hf⟩

/-! ### A completed instruction

The conditions of the list are false of it, so it is one of the cases the laws describe. -/

theorem faultOf_of_next {i : Instr} {s t : State} (h : exec i s = .next t) : faultOf i s = none := by
  cases hf : faultOf i s with
  | none => rfl
  | some f => cases (exec_of_faultOf_some hf).symm.trans h

theorem exec_call_next {nnn : Addr} {s t : State} (h : exec (.call nnn) s = .next t) :
    ∃ hroom : s.sp.toNat < 16,
      t = { s with stack := s.stack.set s.sp.toNat s.pc hroom, sp := s.sp + 1, pc := addrOperand nnn } := by
  have hroom : s.sp.toNat < 16 := Nat.not_le.1 (not_of_ite_eq_none (faultOf_of_next h))
  cases (execCall_ok nnn hroom).symm.trans h
  exact ⟨hroom, rfl⟩

theorem exec_ret_next {s t : State} (h : exec .ret s = .next t) :
    s.sp ≠ 0 ∧ ∃ htop : s.sp.toNat - 1 < 16, t = { s with sp := s.sp - 1, pc := s.stack[s.sp.toNat - 1] } := by
  have hne : s.sp ≠ 0 := fun h0 => not_of_ite_eq_none (faultOf_of_next h) (congrArg BitVec.toNat h0)
  have htop : s.sp.toNat - 1 < 16 := by
    by_contra hhigh
    cases (congrArg orRaise (popToPc_high (s := s) (by omega))).symm.trans h
  cases (execRet_ok hne htop).symm.trans h
  exact ⟨hne, htop, rfl⟩

theorem storeAtIndex_keeps_wf {s t : State} {bs : List Byte} (h0 : 0 < bs.length) (h : storeAtIndex s bs = .next t)
    (hwf : Memory.wf s.mem = true) : Memory.wf t.mem = true := by
  by_cases hfit : s.I.toNat + bs.length ≤ 0x1000
  · obtain ⟨u, hu, -, -, -, hkeeps⟩ := storeAtIndex_ok hfit
    cases hu.symm.trans h
    exact hkeeps hwf
  · cases (storeAtIndex_error h0 (Nat.not_le.1 hfit)).symm.trans h

theorem exec_loadRegs_next {x : Reg} {s t : State} (h : exec (.loadRegs x) s = .next t) :
    t.mem = s.mem ∧ ∀ q : Reg, x.toNat < q.toNat → getV t q = getV s q := by
  have hfit : s.I.toNat + x.toNat ≤ 0xFFF := Nat.not_lt.1 (not_of_ite_eq_none (faultOf_of_next h))
  obtain ⟨u, hu, -, hmem, -, habove⟩ := execLoadRegs_ok hfit
  cases hu.symm.trans h
  exact ⟨hmem, habove⟩

theorem exec_drw_fits {x y : Reg} {n : Rows} {s t : State} (h : exec (.drw x y n) s = .next t) :
    n.toNat = 0 ∨ s.I.toNat + n.toNat ≤ 0x1000 := by
  have hfit := not_of_ite_eq_none (faultOf_of_next h)
  omega

/-! ### The statements -/

/-- Settles O15: the list gives an instruction its error, and where it gives none the instruction answers a next
state. -/
theorem execFaultsExactlyAsListed : Obligations.ExecFaultsExactlyAsListed := by
  unfold Obligations.ExecFaultsExactlyAsListed
  refine fun i s hsp f => ⟨fun h => ?_, exec_of_faultOf_some⟩
  cases hf : faultOf i s with
  | none =>
    obtain ⟨t, ht⟩ := exec_of_faultOf_none (fun _ => hsp) hf
    cases ht.symm.trans h
  | some g =>
    cases (exec_of_faultOf_some hf).symm.trans h
    rfl

/-- Settles O16: the instructions the list names complete outside its conditions, the others always. -/
theorem execCompletesWhereNoFaultIsListed : Obligations.ExecCompletesWhereNoFaultIsListed := by
  unfold Obligations.ExecCompletesWhereNoFaultIsListed
  exact fun i s hsp h => exec_of_faultOf_none (fun _ => hsp) h

end Sys2Proof.Machine
end

section
/-! PROOFS for spec/40_step_cycle.md R120 to R131 and spec/60_exceptions.md R260 to R266. The items of a Running step in
their order, the step that takes a key, and the fault latch. -/

namespace Sys2Proof.Machine

/-! ### The items of a Running step -/

/-- Items 1 and 2: a `pc` above 0xFFE ends the step at the fetch. -/
theorem runStep_fetch_error {s : State} (hpc : 0xFFE < s.pc.toNat) :
    runStep s = .fault (.boundsError (firstOffence s.pc.toNat)) := by
  simp only [runStep, clearDirty_mem, clearDirty_pc,
    memReadWord_error (show 0x1000 ≤ s.pc.toNat + 1 by omega), raise]

/-- Items 3 and 4: the word fetched is decoded, and an illegal one ends the step. -/
theorem runStep_illegal {s : State} {r : Reject} (hpc : s.pc.toNat ≤ 0xFFE) (hd : decode (wordAtPc s) = .error r) :
    runStep s = .fault (.unknownInstruction (wordAtPc s)) := by
  have hfetch : memReadWord s.mem s.pc.toNat = .ok (wordAtPc s) := memReadWord_ok (by omega)
  simp only [runStep, clearDirty_mem, clearDirty_pc, hfetch, hd, raise]

/-- Items 5 and 6: a legal word is executed on the state with dirty cleared, and the step is finished. -/
theorem runStep_legal {s : State} {i : Instr} (hpc : s.pc.toNat ≤ 0xFFE) (hd : decode (wordAtPc s) = .ok i) :
    runStep s = onNext (exec i (clearDirty s)) (finishStep i) := by
  have hfetch : memReadWord s.mem s.pc.toNat = .ok (wordAtPc s) := memReadWord_ok (by omega)
  simp only [runStep, clearDirty_mem, clearDirty_pc, hfetch, hd]

theorem step_of_runs {s : State} {i : Instr} (h : Runs s i) :
    step s = onNext (onNext (exec i (clearDirty s)) (finishStep i)) presentNext := by
  rw [step_of_running h.no_fault h.running, runStep_legal h.fetchable h.decodes]

/-- What a step changes after the instruction: the timers, `pc` and the inputs. -/
theorem finishStep_sameBut (i : Instr) (s : State) : SameBut [.pc, .DT, .ST] s (finishStep i s) := by
  intro p hp; cases p <;> simp_all [keeps]

theorem setsPc_iff (i : Instr) : setsPc i = true ↔ ∃ nnn, i = .jp nnn ∨ i = .call nnn ∨ i = .jpV0 nnn := by
  cases i <;> simp [setsPc]

/-! ### The outcome of a step -/

/-- A faulted core raises its latched fault and does nothing else (spec/40_step_cycle.md R131). -/
theorem step_of_faulted {s : State} {f : Fault} (hf : s.fault = some f) : step s = .fault f := by
  simp only [step, coreStep, hf, raise, onNext]

/-- A Running step of an unfaulted core answers a next state, raises `BoundsError`, or raises `UnknownInstruction` of
the illegal word it fetched. -/
theorem runStep_outcome (s : State) :
    (∃ t, runStep s = .next t) ∨ (∃ index, runStep s = .fault (.boundsError index)) ∨
      (s.pc.toNat ≤ 0xFFE ∧ WellFormed.word (wordAtPc s) = false ∧
        runStep s = .fault (.unknownInstruction (wordAtPc s))) := by
  by_cases hpc : s.pc.toNat ≤ 0xFFE
  · cases hd : decode (wordAtPc s) with
    | error r => exact .inr (.inr ⟨hpc, (decode_error_iff _).1 ⟨r, hd⟩, runStep_illegal hpc hd⟩)
    | ok i =>
      rw [runStep_legal hpc hd]
      obtain ⟨t, ht⟩ | ⟨index, hindex⟩ := exec_next_or_boundsError i (clearDirty s)
      · exact .inl ⟨finishStep i t, by rw [ht, onNext]⟩
      · exact .inr (.inl ⟨index, by rw [hindex, onNext]⟩)
  · exact .inr (.inl ⟨_, runStep_fetch_error (Nat.not_le.1 hpc)⟩)

/-- A step of an unfaulted core that raises is a Running step that raises. -/
theorem step_eq_fault_iff {s : State} {f : Fault} (hf : s.fault = none) :
    step s = .fault f ↔ s.execState = .running ∧ runStep s = .fault f := by
  cases hs : s.execState with
  | running => rw [step_of_running hf hs, onNext_eq_fault]; simp
  | waitingForKey r => rw [step_of_waiting hf hs]; simp

theorem step_ne_refused (s : State) (r : Refusal) : step s ≠ .refused r := by
  cases hf : s.fault with
  | some f => simp [step_of_faulted hf]
  | none =>
    cases hs : s.execState with
    | waitingForKey q => simp [step_of_waiting hf hs]
    | running =>
      rw [step_of_running hf hs, ne_eq, onNext_eq_refused]
      obtain ⟨t, h⟩ | ⟨index, h⟩ | ⟨-, -, h⟩ := runStep_outcome s <;> simp [h]

/-! ### The fault latch -/

theorem stepRequest_of_faulted {s : State} {f : Fault} (hf : s.fault = some f) : stepRequest s = s := by
  simp only [stepRequest, hf]

theorem stepRequest_of_fault {s : State} {f : Fault} (hf : s.fault = none) (h : step s = .fault f) :
    stepRequest s = faultedState f s := by
  simp only [stepRequest, hf, h]

@[simp] theorem faultedState_fault (f : Fault) (s : State) : (faultedState f s).fault = some f := rfl

@[simp] theorem resetRequest_fault (s : State) : (resetRequest s).fault = none := rfl

/-! ### The key that is taken -/

@[simp] theorem keyByte_toNat (k : Key) : (keyByte k).toNat = k.toNat :=
  BitVec.toNat_setWidth_of_le (by decide)

theorem waitStep_sameBut (r : Reg) (s : State) : SameBut [.V, .execState] s (waitStep r s) := by
  cases hk : s.key with
  | none => rw [waitStep_no_key hk]; exact SameBut.refl _ s
  | some k => rw [waitStep_key hk]; exact (setV_sameBut s r _).trans (setExecState_sameBut _ _)

/-! ### The statements -/

/-- Settles O7: `step` is unfolded down to the fetch, which gives the word at `pc`. -/
theorem stepRunsDecodedInstruction : Obligations.StepRunsDecodedInstruction := by
  unfold Obligations.StepRunsDecodedInstruction
  exact fun _ _ => step_of_runs

/-- Settles O8: item by item. -/
theorem runningStepFollowsTheSixItems : Obligations.RunningStepFollowsTheSixItems := by
  unfold Obligations.RunningStepFollowsTheSixItems
  intro s hf hr
  refine ⟨fun hpc => ?_, fun hpc r hd => ?_, fun hpc i hd => ⟨fun f hexec => ?_, fun t hexec => ?_⟩⟩
  · exact (step_eq_fault_iff hf).2 ⟨hr, runStep_fetch_error hpc⟩
  · exact (step_eq_fault_iff hf).2 ⟨hr, runStep_illegal hpc hd⟩
  · rw [step_of_runs ⟨hf, hr, hpc, hd⟩, onNext_eq_fault, onNext_eq_fault]
    exact hexec
  · refine ⟨presentNext (finishStep i t), ?_, (finishStep_sameBut i t).trans (presentNext_sameBut _), ?_, ?_, ?_, ?_⟩
    · rw [step_of_runs ⟨hf, hr, hpc, hd⟩, show exec i (clearDirty s) = .next t from hexec, onNext, onNext]
    · rw [presentNext_DT, finishStep_DT, countDown]
    · rw [presentNext_ST, finishStep_ST, countDown]
    · intro hi
      rw [presentNext_pc, finishStep_pc, if_pos ((setsPc_iff i).2 hi)]
    · intro hi
      rw [presentNext_pc, finishStep_pc, if_neg (mt (setsPc_iff i).1 hi)]

/-- Settles O9: an unfaulted step raises `UnknownInstruction` at its decode item only, of the word it fetched. -/
theorem unknownInstructionRaisedExactlyByIllegalWords : Obligations.UnknownInstructionRaisedExactlyByIllegalWords := by
  unfold Obligations.UnknownInstructionRaisedExactlyByIllegalWords
  intro s w hf
  rw [step_eq_fault_iff hf]
  refine and_congr_right fun _ => ⟨fun h => ?_, ?_⟩
  · obtain ⟨t, ht⟩ | ⟨index, hindex⟩ | ⟨hpc, hill, hunknown⟩ := runStep_outcome s
    · cases ht.symm.trans h
    · cases hindex.symm.trans h
    · cases hunknown.symm.trans h
      exact ⟨hpc, rfl, hill⟩
  · rintro ⟨hpc, rfl, hill⟩
    obtain ⟨r, hr⟩ := (decode_error_iff _).2 hill
    exact runStep_illegal hpc hr

/-- Settles O11: the step writes V[r] and the execution state, and then the host presents the next inputs. -/
theorem waitWithKeyTakesIt : Obligations.WaitWithKeyTakesIt := by
  unfold Obligations.WaitWithKeyTakesIt
  intro s r k hf hw hk
  refine ⟨presentNext (waitStep r s), step_of_waiting hf hw, ?_, ?_, fun q hq => ?_,
    (waitStep_sameBut r s).trans (presentNext_sameBut _)⟩
  · rw [waitStep_key hk, getV_presentNext, getV_setExecState, getV_setV_same, keyByte_toNat]
  · rw [waitStep_key hk, presentNext_execState, setExecState_execState]
  · rw [waitStep_key hk, getV_presentNext, getV_setExecState, getV_setV_other _ _ (List.ne_of_not_mem_cons hq)]

/-- Settles O12: a step looks at the latch before everything else, and the inputs are not the latch. -/
theorem faultedCoreIgnoresSteps : Obligations.FaultedCoreIgnoresSteps := by
  unfold Obligations.FaultedCoreIgnoresSteps
  exact fun s f hf => ⟨step_of_faulted hf, fun key rnd => step_of_faulted (s := presentInputs key rnd s) hf,
    stepRequest_of_faulted hf⟩

/-- Settles O13: the request latches the fault over the free state, whose latch alone the later requests look at. -/
theorem faultIsLatchedUntilReset : Obligations.FaultIsLatchedUntilReset := by
  unfold Obligations.FaultIsLatchedUntilReset
  intro s f hf h
  rw [stepRequest_of_fault hf h]
  exact ⟨faultedState_fault f s, stepRequest_of_faulted (faultedState_fault f s), resetRequest_fault _⟩

/-- Settles O14: the outcomes of a Running step are a next state and the two other faults. -/
theorem stepNeverRefusesNorRaisesUnimplemented : Obligations.StepNeverRefusesNorRaisesUnimplemented := by
  unfold Obligations.StepNeverRefusesNorRaisesUnimplemented
  refine fun s => ⟨step_ne_refused s, fun hf w => ?_⟩
  rw [ne_eq, step_eq_fault_iff hf]
  obtain ⟨t, h⟩ | ⟨index, h⟩ | ⟨-, -, h⟩ := runStep_outcome s <;> simp [h]

/-- Settles O33: kind by kind. -/
theorem faultOutputs : Obligations.FaultOutputs := by
  unfold Obligations.FaultOutputs
  refine fun s w => ⟨fun h => ?_, fun h => ?_, fun h => ?_, fun h => ?_⟩ <;> simp [faultOut, faultKind, faultInfo, h]

end Sys2Proof.Machine
end

section
/-! PROOFS for spec/10_state.md R22, R41, spec/20_memory.md R67, R78, spec/44_display.md R205. Which pieces of state an
instruction and a whole step can change. -/

namespace Sys2Proof.Machine

/-! ### The writers of VF, of the display and of memory -/

theorem fb_mem_writtenBy_iff (i : Instr) : Piece.fb ∈ writtenBy i ↔ i = .cls ∨ ∃ x y n, i = .drw x y n := by
  cases i <;> simp [writtenBy]

theorem mem_mem_writtenBy_iff (i : Instr) : Piece.mem ∈ writtenBy i ↔ ∃ x, i = .ldB x ∨ i = .storeRegs x := by
  cases i <;> simp [writtenBy]

theorem getV_VF_setV {s : State} {x : Reg} (v : Byte) (hx : (x == VF) = false) : getV (setV s x v) VF = getV s VF :=
  getV_setV_other s v (Ne.symm (beq_eq_false_iff_ne.1 hx))

/-- A load of V0 to V[x] stops below VF unless x is 15. -/
theorem exec_loadRegs_getV_VF {x : Reg} {s t : State} (h : exec (.loadRegs x) s = .next t) (hx : (x == VF) = false) :
    getV t VF = getV s VF := by
  have hne : x ≠ VF := beq_eq_false_iff_ne.1 hx
  obtain ⟨-, habove⟩ := exec_loadRegs_next h
  exact habove VF (by bv_omega)

theorem exec_getV_VF {i : Instr} {s t : State} (h : exec i s = .next t) (hi : writesVF i = false) :
    getV t VF = getV s VF := by
  cases i with
  | addReg | subReg | shr | subnReg | shl | drw => cases hi
  | ldImm | addImm | ldReg | orReg | andReg | xorReg | rnd | ldVxDT => cases h; exact getV_VF_setV _ hi
  | loadRegs => exact exec_loadRegs_getV_VF h hi
  | cls | ret | jp | call | seImm | sneImm | seReg | sneReg | ldI | jpV0 | skp | sknp | ldVxK | ldDTVx | ldSTVx | addI
  | ldF | ldB | storeRegs => exact exec_sameBut_writtenBy h .V (by simp [writtenBy]) VF

/-! ### Whole steps -/

/-- A piece that neither the key wait nor the step's own items write is changed by a step only if the instruction that
the step runs writes it. -/
theorem step_changes_only_written {s t : State} {p : Piece} (h : step s = .next t)
    (hp : p ∉ [.V, .execState, .dirty, .pc, .DT, .ST, .inputs]) (hc : ¬ keeps s t p) :
    ∃ i, Runs s i ∧ p ∈ writtenBy i := by
  obtain ⟨hf, ⟨r, -, rfl⟩ | ⟨hr, i, u, hpc, hd, hu, rfl⟩⟩ := step_next h
  · exact absurd ((waitStep_sameBut r s).trans (presentNext_sameBut _) p (by simp_all)) hc
  · refine ⟨i, ⟨hf, hr, hpc, hd⟩, by_contra fun hw => hc ?_⟩
    have hclear : SameBut [.dirty] s (clearDirty s) := by intro q hq; cases q <;> simp_all [keeps]
    exact ((hclear.trans (exec_sameBut_writtenBy hu)).trans (finishStep_sameBut i u)).trans (presentNext_sameBut _) p
      (by simp_all)

/-! ### The statements -/

/-- Settles O17: the frame of every instruction. -/
theorem execWritesOnlyItsAccessRow : Obligations.ExecWritesOnlyItsAccessRow := by
  unfold Obligations.ExecWritesOnlyItsAccessRow
  exact fun _ _ _ => exec_sameBut_writtenBy

/-- Settles O18: an instruction that writes registers but no flag writes V[x], or V0 to V[x], and x is not 15. -/
theorem vfWrittenOnlyByFlagInstructionsOrByName : Obligations.VFWrittenOnlyByFlagInstructionsOrByName := by
  unfold Obligations.VFWrittenOnlyByFlagInstructionsOrByName
  exact fun _ _ _ => exec_getV_VF

/-- Settles O19: the display is written by the two instructions and by nothing else of a step. -/
theorem displayChangedOnlyByClearAndDraw : Obligations.DisplayChangedOnlyByClearAndDraw := by
  unfold Obligations.DisplayChangedOnlyByClearAndDraw
  intro s t h hfb
  obtain ⟨i, hi, hw⟩ := step_changes_only_written (p := .fb) h (by decide) hfb
  exact ⟨i, hi, (fb_mem_writtenBy_iff i).1 hw⟩

/-- Settles O20: memory is written by the two stores and by nothing else of a step. -/
theorem memoryChangedOnlyByStores : Obligations.MemoryChangedOnlyByStores := by
  unfold Obligations.MemoryChangedOnlyByStores
  rintro s t h ⟨a, ha⟩
  obtain ⟨i, hi, hw⟩ := step_changes_only_written (p := .mem) h (by decide) fun hk => ha (hk a)
  exact ⟨i, hi, (mem_mem_writtenBy_iff i).1 hw⟩

end Sys2Proof.Machine
end

section
/-! PROOFS for spec/41_control_flow.md R141, R142, R146, R147. Call and return, and the skips on two registers. -/

namespace Sys2Proof.Machine

/-! ### Encodings -/

theorem seReg_encodedAs (x y : Reg) : EncodedAs (.seReg x y) 0xF00F 0x5000 :=
  encodedAs_of_formatXYN rfl rfl (decode_formatXYN_5 x y)

theorem sneReg_encodedAs (x y : Reg) : EncodedAs (.sneReg x y) 0xF00F 0x9000 :=
  encodedAs_of_formatXYN rfl rfl (decode_formatXYN_9 x y)

/-! ### Call and return -/

theorem sp_add_one_toNat {b : Byte} (h : b.toNat < 16) : (b + 1).toNat = b.toNat + 1 := by bv_omega

/-- A return with `sp` from 1 to 16 takes `pc` from the entry below `sp` (spec/41_control_flow.md R142). -/
theorem exec_ret {s : State} {k : Fin 16} (h : k.val + 1 = s.sp.toNat) :
    exec .ret s = .next { s with sp := s.sp - 1, pc := s.stack[k.val] } := by
  have hne : s.sp ≠ 0 := fun h0 => by simp [h0] at h
  have hk : s.sp.toNat - 1 = k.val := by omega
  have hret := execRet_ok hne (by omega)
  simp only [hk] at hret
  exact hret

/-! ### Skips -/

theorem exec_seReg (x y : Reg) (s : State) :
    exec (.seReg x y) s = .next (skipIf (getV s x == getV s y) s) := rfl

theorem exec_sneReg (x y : Reg) (s : State) :
    exec (.sneReg x y) s = .next (skipIf (getV s x != getV s y) s) := rfl

/-! ### The statements -/

/-- Settles O35: the call writes its own address at the old `sp`, and 2nnn is among the instructions the advance passes
over. -/
theorem callPushesItsOwnAddress : Obligations.CallPushesItsOwnAddress := by
  unfold Obligations.CallPushesItsOwnAddress
  intro nnn s hsp
  refine ⟨_, execCall_ok nnn hsp, addrOperand_toNat nnn, ?_, sp_add_one_toNat hsp, fun k => ?_,
    with_pc_stack_sameBut s _ _ _⟩
  · rw [finishStep_pc_of_setsPc rfl]
    exact addrOperand_toNat nnn
  · rw [Vector.getElem_set]
    exact if_congr eq_comm rfl rfl

/-- Settles O36: the return reads the entry below `sp`, and 00EE is not among the instructions that set `pc` past the
advance. -/
theorem returnRestoresPc : Obligations.ReturnRestoresPc := by
  unfold Obligations.ReturnRestoresPc
  intro s hpos hle
  have hne : s.sp ≠ 0 := fun h0 => by simp [h0] at hpos
  have htop : (⟨s.sp.toNat - 1, by omega⟩ : Fin 16).val + 1 = s.sp.toNat := Nat.sub_add_cancel hpos
  refine ⟨_, exec_ret htop, ?_, rfl, fun k hk => ?_, finishStep_pc .ret _, with_pc_stack_sameBut s _ _ _⟩
  · rw [sp_sub_one_toNat hne, Nat.sub_add_cancel hpos]
  · have hk' : k.val = s.sp.toNat - 1 := by omega
    simp only [hk']

/-- Settles O37: the return pops the entry the call pushed, the call's own address, and the step adds 2 to it. -/
theorem callThenReturnResumesAfterTheCall : Obligations.CallThenReturnResumesAfterTheCall := by
  unfold Obligations.CallThenReturnResumesAfterTheCall
  intro nnn s hsp
  refine ⟨_, _, execCall_ok nnn hsp, exec_ret (k := ⟨s.sp.toNat, hsp⟩) ?_, ?_, ?_⟩
  · rw [finishStep_sp]
    exact (sp_add_one_toNat hsp).symm
  · rw [finishStep_pc]
    simp [setsPc]
  · simp

/-- Settles O40: the two instructions skip on opposite conditions; a word of their groups with another low nibble is
among the rejected ones. -/
theorem skipsOnRegisters : Obligations.SkipsOnRegisters := by
  unfold Obligations.SkipsOnRegisters
  intro x y s
  refine ⟨seReg_encodedAs x y, sneReg_encodedAs x y, fun w hop hn => ?_, skipIf (getV s x == getV s y) s,
    skipIf (getV s x != getV s y) s, exec_seReg x y s, exec_sneReg x y s, fun heq => ?_, fun hne => ?_,
    skipIf_sameBut _ s, skipIf_sameBut _ s⟩
  · rw [decode_rejects_iff, Rejected]
    obtain h5 | h9 := hop
    · exact .inr (.inl ⟨h5, hn⟩)
    · exact .inr (.inr (.inr (.inl ⟨h9, hn⟩)))
  · rw [finishStep_skipIf_pc rfl, finishStep_skipIf_pc rfl]
    simp [heq]
  · rw [finishStep_skipIf_pc rfl, finishStep_skipIf_pc rfl]
    simp [hne]

end Sys2Proof.Machine
end

section
/-! PROOFS for spec/42_load_alu.md R168, R170, R171, spec/43_index_memory.md R181. The shifts, the random byte, and the
addition to `I`. -/

namespace Sys2Proof.Machine

/-! ### What each instruction writes -/

theorem exec_shr (x y : Reg) (s : State) : exec (.shr x y) s =
    .next (setV (setFlag s (shiftedOutRight (getV s x))) x (getV s x >>> 1)) := rfl

theorem exec_shl (x y : Reg) (s : State) : exec (.shl x y) s =
    .next (setV (setFlag s (shiftedOutLeft (getV s x))) x (getV s x <<< 1)) := rfl

theorem exec_rnd (x : Reg) (kk : Byte) (s : State) : exec (.rnd x kk) s = .next (setV s x (s.rnd &&& kk)) := rfl

theorem exec_addI (x : Reg) (s : State) :
    exec (.addI x) s = .next (setI s (s.I + byteOperand (getV s x))) := rfl

/-! ### A write of VF followed by one of V[x] -/

/-- V[x] is written last, so the flag stands in VF only when x is another register (spec/42_load_alu.md R173, log entry
10). -/
theorem getV_setV_setFlag_VF {x : Reg} (hx : x ≠ VF) (s : State) (b : Bool) (v : Byte) :
    getV (setV (setFlag s b) x v) VF = flagByte b := by
  rw [getV_setV_other _ _ hx.symm, getV_setFlag_same]

theorem setV_setFlag_sameRegsBut (s : State) (b : Bool) (x : Reg) (v : Byte) :
    SameRegsBut [x, VF] s (setV (setFlag s b) x v) := by
  intro r hr
  obtain ⟨hrx, hrF⟩ : r ≠ x ∧ r ≠ VF := by simpa using hr
  rw [getV_setV_other _ _ hrx, getV_setFlag_other _ _ hrF]

theorem setV_setFlag_sameBut (s : State) (b : Bool) (x : Reg) (v : Byte) :
    SameBut [.V] s (setV (setFlag s b) x v) :=
  ((setFlag_sameBut s b).trans (setV_sameBut _ x v)).mono (by simp)

/-! ### Shifts as numbers -/

theorem shiftRight_toNat (v : Byte) : (v >>> 1).toNat = v.toNat / 2 := by
  rw [BitVec.toNat_ushiftRight, Nat.shiftRight_one]

theorem shiftLeft_toNat (v : Byte) : (v <<< 1).toNat = v.toNat * 2 % 256 := by
  rw [BitVec.toNat_shiftLeft, Nat.shiftLeft_eq]

theorem flagByte_shiftedOutRight_toNat (v : Byte) : (flagByte (shiftedOutRight v)).toNat = v.toNat % 2 := by
  revert v; decide

theorem flagByte_shiftedOutLeft_toNat (v : Byte) : (flagByte (shiftedOutLeft v)).toNat = v.toNat / 128 := by
  revert v; decide

/-! ### The statements -/

/-- Settles O45: both shifts write VF first and V[x] second, so that the shifted value stands when x is 15. -/
theorem shiftsMoveOneBitIntoVF : Obligations.ShiftsMoveOneBitIntoVF := by
  unfold Obligations.ShiftsMoveOneBitIntoVF
  intro x y s
  refine ⟨_, _, exec_shr x y s, exec_shl x y s, ?_, ?_, fun hx => ⟨?_, ?_⟩, setV_setFlag_sameRegsBut s _ x _,
    setV_setFlag_sameRegsBut s _ x _, setV_setFlag_sameBut s _ x _, setV_setFlag_sameBut s _ x _⟩
  · rw [getV_setV_same, shiftRight_toNat]
  · rw [getV_setV_same, shiftLeft_toNat]
  · rw [getV_setV_setFlag_VF hx, flagByte_shiftedOutRight_toNat]
  · rw [getV_setV_setFlag_VF hx, flagByte_shiftedOutLeft_toNat]

/-- Settles O46: one write of V[x], of the step's random byte masked. -/
theorem randomIsMasked : Obligations.RandomIsMasked := by
  unfold Obligations.RandomIsMasked
  intro x kk s
  refine ⟨_, exec_rnd x kk s, fun b _ => ?_, setV_sameRegsBut s x _, setV_sameBut s x _⟩
  rw [getV_setV_same, BitVec.getLsbD_and]

/-- Settles O48: the sum of words is the sum modulo 65536. -/
theorem indexAddWraps : Obligations.IndexAddWraps := by
  unfold Obligations.IndexAddWraps
  intro x s
  refine ⟨_, exec_addI x s, ?_, setI_sameBut s _⟩
  rw [setI_I, BitVec.toNat_add, byteOperand_toNat]

end Sys2Proof.Machine
end

section
/-! PROOFS for spec/43_index_memory.md R184, R185. The registers stored at `I` and loaded from there. -/

namespace Sys2Proof.Machine

theorem exec_storeRegs (x : Reg) (s : State) : exec (.storeRegs x) s = storeAtIndex s (regsUpTo s x) := rfl

/-- Everything Fx55 does when its range fits (spec/43_index_memory.md R184). -/
theorem exec_storeRegs_ok {x : Reg} {s : State} (hfit : s.I.toNat + x.toNat ≤ 0xFFF) :
    ∃ t, exec (.storeRegs x) s = .next t ∧
      (∀ q : Reg, q.toNat ≤ x.toNat → Memory.get t.mem (s.I.toNat + q.toNat) = getV s q) ∧
      SameBytesBut s.I.toNat (x.toNat + 1) s t ∧ SameBut [.mem] s t := by
  have hlen : (regsUpTo s x).length = x.toNat + 1 := regsUpTo_length s x
  obtain ⟨t, ht, hframe, hbytes, hregs, -⟩ := storeAtIndex_ok (s := s) (bs := regsUpTo s x) (by omega)
  refine ⟨t, ht, fun q hq => ?_, hlen ▸ hbytes, hframe⟩
  rw [hregs q.toNat (by omega), regsUpTo_getElem, regOfNat_toNat]

theorem exec_storeRegs_error {x : Reg} {s : State} (hout : 0xFFF < s.I.toNat + x.toNat) :
    exec (.storeRegs x) s = .fault (.boundsError (firstOffence s.I.toNat)) :=
  exec_of_faultOf_some (if_pos hout)

/-! ### The statements -/

/-- Settles O50: Fx55 is a store of x + 1 bytes at `I`, the registers in their order. -/
theorem registersStored : Obligations.RegistersStored := by
  unfold Obligations.RegistersStored
  exact fun x s => ⟨exec_storeRegs_ok, exec_storeRegs_error⟩

/-- Settles O51: the loop of Fx65 reads x + 1 bytes from `I` into the registers in their order. -/
theorem registersLoaded : Obligations.RegistersLoaded := by
  unfold Obligations.RegistersLoaded
  refine fun x s => ⟨fun hfit => ?_, execLoadRegs_error⟩
  obtain ⟨t, ht, hframe, -, hin, hout⟩ := execLoadRegs_ok hfit
  exact ⟨t, ht, hin, hout, hframe⟩

/-- Settles O52: the store completed, so its range fits, and the load reads the bytes the store wrote. -/
theorem storeThenLoadRoundTrips : Obligations.StoreThenLoadRoundTrips := by
  unfold Obligations.StoreThenLoadRoundTrips
  intro x s t u ht hmem hI
  have hfit : s.I.toNat + x.toNat ≤ 0xFFF := Nat.not_lt.1 (not_of_ite_eq_none (faultOf_of_next ht))
  obtain ⟨t', ht', hstored, -, hframe⟩ := exec_storeRegs_ok hfit
  cases ht'.symm.trans ht
  have hIs : u.I = s.I := hI.trans (hframe .I (by decide))
  obtain ⟨w, hw, -, -, hloaded, -⟩ := execLoadRegs_ok (s := u) (x := x) (by rwa [hIs])
  refine ⟨w, hw, fun q hq => ?_⟩
  rw [hloaded q hq, hmem, hIs, hstored q hq]

end Sys2Proof.Machine
end

section
/-! PROOFS for spec/45_keys_timers.md R220 to R222. The key tests and the key wait. -/

namespace Sys2Proof.Machine

theorem exec_skp (x : Reg) (s : State) : exec (.skp x) s = .next (skipIf (keyMatches s x) s) := rfl

theorem exec_sknp (x : Reg) (s : State) : exec (.sknp x) s = .next (skipIf (!keyMatches s x) s) := rfl

theorem exec_ldVxK (x : Reg) (s : State) : exec (.ldVxK x) s = .next (setExecState s (.waitingForKey x)) := rfl

/-- The key test compares all 8 bits of the register, and an empty latch equals no value (log entries 8, 22). -/
theorem keyMatches_iff (s : State) (x : Reg) :
    keyMatches s x = true ↔ ∃ k, s.key = some k ∧ k.toNat = (getV s x).toNat := by
  unfold keyMatches
  cases hk : s.key with
  | none => simp
  | some k =>
    rw [beq_iff_eq, ← BitVec.toNat_inj, keyByte_toNat]
    simp

/-! ### The statements -/

/-- Settles O57: the two instructions skip on the key test and on its negation. -/
theorem skipsOnKey : Obligations.SkipsOnKey := by
  unfold Obligations.SkipsOnKey
  intro x s
  rw [← keyMatches_iff]
  refine ⟨_, _, exec_skp x s, exec_sknp x s, fun hmatch => ?_, fun hno => ?_, skipIf_sameBut _ s, skipIf_sameBut _ s⟩
  · rw [finishStep_skipIf_pc rfl, finishStep_skipIf_pc rfl]
    simp [hmatch]
  · rw [finishStep_skipIf_pc rfl, finishStep_skipIf_pc rfl]
    simp [hno]

/-- Settles O58: Fx0A is one write of the execution state, which the key latch does not enter, and its step ticks and
advances as every other. -/
theorem keyWaitEntered : Obligations.KeyWaitEntered := by
  unfold Obligations.KeyWaitEntered
  intro x s
  refine ⟨_, exec_ldVxK x s, setExecState_execState s _, setExecState_sameBut s _, finishStep_pc (.ldVxK x) _, ?_, ?_⟩
  · rw [finishStep_DT, setExecState_DT, countDown_toNat]
  · rw [finishStep_ST, setExecState_ST, countDown_toNat]

end Sys2Proof.Machine
end

section
/-! PROOFS for spec/10_state.md R29, R35, R36, R41 (the read side of the access table). An instruction does the same
from two states that differ in a piece it does not read. -/

namespace Sys2Proof.Machine

/-- `g` changes the random byte, the key latch or the sound timer only: it keeps every piece that instructions in
general read, and commutes with every write of theirs. -/
structure ChangesUnread (g : State → State) : Prop where
  V : ∀ s r, getV (g s) r = getV s r
  I : ∀ s, (g s).I = s.I
  pc : ∀ s, (g s).pc = s.pc
  sp : ∀ s, (g s).sp = s.sp
  stack : ∀ s, (g s).stack = s.stack
  DT : ∀ s, (g s).DT = s.DT
  mem : ∀ s, (g s).mem = s.mem
  fb : ∀ s, (g s).fb = s.fb
  setV : ∀ s r v, setV (g s) r v = g (setV s r v)
  setI : ∀ s w, setI (g s) w = g (setI s w)
  jumpTo : ∀ w s, jumpTo w (g s) = g (jumpTo w s)
  setStack : ∀ s stack sp pc,
    { g s with stack := stack, sp := sp, pc := pc } = g { s with stack := stack, sp := sp, pc := pc }
  setDT : ∀ s v, setDT (g s) v = g (setDT s v)
  setExecState : ∀ s e, setExecState (g s) e = g (setExecState s e)
  raiseDirty : ∀ s, raiseDirty (g s) = g (raiseDirty s)
  setMem : ∀ s m, setMem (g s) m = g (setMem s m)
  setFb : ∀ s fb, setFb (g s) fb = g (setFb s fb)

theorem changesUnread_rnd (b : Byte) : ChangesUnread fun s => { s with rnd := b } := by
  constructor <;> intros <;> rfl

theorem changesUnread_key (k : Option Key) : ChangesUnread fun s => { s with key := k } := by
  constructor <;> intros <;> rfl

theorem changesUnread_ST (v : Byte) : ChangesUnread fun s => { s with ST := v } := by
  constructor <;> intros <;> rfl

section
variable {g : State → State} (hg : ChangesUnread g)
include hg

namespace ChangesUnread

/-! ### The shared operations -/

theorem skipIf (c : Bool) (s : State) : skipIf c (g s) = g (skipIf c s) := by
  cases c with
  | false => rfl
  | true => simpa only [Machine.skipIf, Machine.jumpTo, addTwo, hg.pc, if_true] using hg.jumpTo (s.pc + 2) s

theorem setFlag (s : State) (b : Bool) : setFlag (g s) b = g (setFlag s b) := hg.setV s VF (flagByte b)

theorem pushWord (s : State) (w : Word) : pushWord (g s) w = (pushWord s w).map g := by
  by_cases h : s.sp.toNat < 16
  · rw [pushWord_ok h, pushWord_ok (s := g s) (by rwa [hg.sp])]
    simp only [hg.stack, hg.sp, hg.pc, hg.setStack, Except.map]
  · rw [pushWord_error (Nat.not_lt.1 h), pushWord_error (s := g s) (by rw [hg.sp]; omega), hg.sp, Except.map]

theorem popToPc (s : State) : popToPc (g s) = (popToPc s).map g := by
  by_cases h0 : s.sp = 0
  · rw [popToPc_empty h0, popToPc_empty (s := g s) (by rw [hg.sp, h0]), Except.map]
  by_cases h : s.sp.toNat - 1 < 16
  · rw [popToPc_ok h0 h, popToPc_ok (s := g s) (by rwa [hg.sp]) (by rwa [hg.sp])]
    simp only [hg.stack, hg.sp, hg.setStack, Except.map]
  · have hhigh : 16 < s.sp.toNat := by omega
    rw [popToPc_high hhigh, popToPc_high (s := g s) (by rwa [hg.sp]), hg.sp, Except.map]

theorem loadRegsFrom (count : Nat) : ∀ (s : State) (addr k : Nat),
    loadRegsFrom (g s) addr k count = (loadRegsFrom s addr k count).map g := by
  induction count with
  | zero => intro s addr k; rfl
  | succ count ih =>
    intro s addr k
    simp only [Machine.loadRegsFrom, hg.mem, hg.setV]
    cases memRead s.mem addr with
    | error f => rfl
    | ok b => exact ih (Machine.setV s (regOfNat k) b) (addr + 1) (k + 1)

theorem storeAtIndex (s : State) (bs : List Byte) : storeAtIndex (g s) bs = onNext (storeAtIndex s bs) g := by
  simp only [Machine.storeAtIndex, indexAddr, hg.mem, hg.I, hg.setMem]
  split <;> rfl

theorem regsUpTo (s : State) (x : Reg) : regsUpTo (g s) x = regsUpTo s x := by simp only [Machine.regsUpTo, hg.V]

theorem keyMatches {s : State} (hkey : (g s).key = s.key) (x : Reg) : keyMatches (g s) x = keyMatches s x := by
  simp only [Machine.keyMatches, hkey, hg.V]

/-! ### Every instruction -/

/-- An instruction does the same from the changed state: Cxkk if `g` keeps the random byte, Ex9E and ExA1 if it keeps
the key latch, Fx18 if `g` commutes with a write of the sound timer. -/
theorem exec (i : Instr) (s : State) (hrnd : ∀ x kk, i = .rnd x kk → (g s).rnd = s.rnd)
    (hkey : ∀ x, i = .skp x ∨ i = .sknp x → (g s).key = s.key)
    (hST : ∀ x v, i = .ldSTVx x → setST (g s) v = g (setST s v)) : exec i (g s) = onNext (exec i s) g := by
  cases i with
  | cls => exact congrArg Host.Outcome.next ((congrArg Machine.raiseDirty (hg.setFb s blankFb)).trans (hg.raiseDirty _))
  | ret => simp only [Machine.exec, execRet, hg.popToPc, orRaise_map]
  | call nnn =>
    simp only [Machine.exec, execCall, hg.pc, hg.pushWord, orRaise_map, onNext_onNext]
    exact congrArg (onNext _) (funext (hg.jumpTo _))
  | jp nnn => exact congrArg Host.Outcome.next (hg.jumpTo _ s)
  | jpV0 nnn => simp only [exec_jpV0, hg.V, hg.jumpTo, onNext]
  | seImm | sneImm | seReg | sneReg =>
    simp only [exec_seImm, exec_sneImm, exec_seReg, exec_sneReg, hg.V, hg.skipIf, onNext]
  | skp x => simp only [exec_skp, hg.keyMatches (hkey x (.inl rfl)), hg.skipIf, onNext]
  | sknp x => simp only [exec_sknp, hg.keyMatches (hkey x (.inr rfl)), hg.skipIf, onNext]
  | ldImm | addImm | ldReg | orReg | andReg | xorReg =>
    simp only [exec_ldImm, exec_addImm, exec_ldReg, exec_orReg, exec_andReg, exec_xorReg, hg.V, hg.setV, onNext]
  | addReg | subReg | subnReg => simp only [exec_addReg, exec_subReg, exec_subnReg, hg.V, hg.setV, hg.setFlag, onNext]
  | shr | shl => simp only [exec_shr, exec_shl, hg.V, hg.setV, hg.setFlag, onNext]
  | rnd x kk => simp only [exec_rnd, hrnd x kk rfl, hg.setV, onNext]
  | ldI | addI | ldF => simp only [exec_ldI, exec_addI, exec_ldF, hg.V, hg.I, hg.setI, onNext]
  | drw x y n =>
    simp only [Machine.exec, execDrw, indexAddr, hg.mem, hg.I, hg.fb, hg.V, hg.setFb, hg.setFlag, hg.raiseDirty]
    split <;> rfl
  | ldVxDT x => simp only [exec_ldVxDT, hg.DT, hg.setV, onNext]
  | ldVxK x => exact congrArg Host.Outcome.next (hg.setExecState s _)
  | ldDTVx x => simp only [exec_ldDTVx, hg.V, hg.setDT, onNext]
  | ldSTVx x => simp only [exec_ldSTVx, hg.V, hST x _ rfl, onNext]
  | ldB x => simp only [exec_ldB, hg.V, hg.storeAtIndex]
  | storeRegs x => simp only [exec_storeRegs, hg.regsUpTo, hg.storeAtIndex]
  | loadRegs x => simp only [Machine.exec, execLoadRegs, indexAddr, hg.I, hg.loadRegsFrom, orRaise_map]

end ChangesUnread
end

/-! ### The statements -/

/-- Settles O23: another random byte is a change that only Cxkk can see. -/
theorem onlyRndReadsTheRandomByte : Obligations.OnlyRndReadsTheRandomByte := by
  unfold Obligations.OnlyRndReadsTheRandomByte
  intro i s b hi
  exact (changesUnread_rnd b).exec i s (fun x kk h => absurd h (hi x kk)) (fun _ _ => rfl) (fun _ _ _ => rfl)

/-- Settles O24: another key latch is a change that only Ex9E and ExA1 can see. -/
theorem onlyKeyTestsReadTheKey : Obligations.OnlyKeyTestsReadTheKey := by
  unfold Obligations.OnlyKeyTestsReadTheKey
  intro i s k hskp hsknp
  exact (changesUnread_key k).exec i s (fun _ _ _ => rfl) (fun x h => (h.elim (hskp x) (hsknp x)).elim)
    (fun _ _ _ => rfl)

/-- Settles O25: another sound timer is a change that no instruction can see, and that Fx18 alone overwrites. -/
theorem noInstructionReadsTheSoundTimer : Obligations.NoInstructionReadsTheSoundTimer := by
  unfold Obligations.NoInstructionReadsTheSoundTimer
  intro i s v hi
  exact (changesUnread_ST v).exec i s (fun _ _ _ => rfl) (fun _ _ => rfl) (fun x _ h => absurd h (hi x))

end Sys2Proof.Machine
end

section
/-! PROOFS for spec/10_state.md R38, R40, spec/46_host_operations.md R242, spec/70_reset_and_hazards.md R290, R292. The
invariant at reset, after boot and over every step; the reset state and the ROM load. -/

namespace Sys2Proof.Machine

/-! ### The invariant over one instruction -/

theorem stack_mem_writtenBy_iff (i : Instr) : Piece.stack ∈ writtenBy i ↔ i = .ret ∨ ∃ nnn, i = .call nnn := by
  cases i <;> simp [writtenBy]

theorem fault_not_mem_writtenBy (i : Instr) : Piece.fault ∉ writtenBy i := by
  cases i <;> simp [writtenBy]

/-- R40 (a) and (b): `sp` is at most 16, and every entry in use is the address of a fetched call. -/
def StackOk (s : State) : Prop :=
  s.sp.toNat ≤ 16 ∧ ∀ k : Fin 16, k.val < s.sp.toNat → s.stack[k.val].toNat ≤ 0xFFE

/-- A call pushes the address it was fetched from, a return takes an entry out of use, and no other instruction touches
the stack. -/
theorem exec_keeps_stackOk {i : Instr} {s t : State} (h : exec i s = .next t) (hpc : s.pc.toNat ≤ 0xFFE)
    (hs : StackOk s) : StackOk t := by
  obtain ⟨hle, hentry⟩ := hs
  by_cases hi : Piece.stack ∈ writtenBy i
  · obtain rfl | ⟨nnn, rfl⟩ := (stack_mem_writtenBy_iff i).1 hi
    · obtain ⟨hne, -, rfl⟩ := exec_ret_next h
      have hsp := sp_sub_one_toNat hne
      exact ⟨by simp only [hsp]; omega, fun k hk => hentry k (by simp only [hsp] at hk; omega)⟩
    · obtain ⟨hroom, rfl⟩ := exec_call_next h
      have hsp := sp_add_one_toNat hroom
      refine ⟨by simp only [hsp]; omega, fun k hk => ?_⟩
      simp only [hsp] at hk
      rw [Vector.getElem_set]
      split
      next => exact hpc
      next hother => exact hentry k (by omega)
  · obtain ⟨hstack, hsp⟩ := exec_sameBut_writtenBy h .stack hi
    rw [StackOk, hstack, hsp]
    exact ⟨hle, hentry⟩

theorem add_two_le {w : Word} (h : w.toNat ≤ 0xFFE) : (w + 2).toNat ≤ 0x10FE := by bv_omega

theorem finishStep_skipIf_pc_le {i : Instr} (hi : setsPc i = false) (c : Bool) {s : State}
    (hpc : s.pc.toNat ≤ 0xFFE) : (finishStep i (skipIf c s)).pc.toNat ≤ 0x10FE := by
  rw [finishStep_skipIf_pc hi]
  cases c with
  | false => exact add_two_le hpc
  | true =>
    have hfour : (s.pc + 4).toNat ≤ 0x10FE := by bv_omega
    exact hfour

/-- R40 (c): the highest `pc` a step can end with is the target of Bnnn, 0xFFF + 0xFF. -/
theorem finishStep_pc_le {i : Instr} {s t : State} (h : exec i s = .next t) (hpc : s.pc.toNat ≤ 0xFFE)
    (hs : StackOk s) : (finishStep i t).pc.toNat ≤ 0x10FE := by
  cases i with
  | jp nnn =>
    cases h
    rw [finishStep_pc_of_setsPc rfl, jumpTo_pc, addrOperand_toNat]
    omega
  | jpV0 nnn =>
    cases h
    rw [finishStep_pc_of_setsPc rfl, jumpTo_pc, addrOperand_add_byteOperand_toNat]
    omega
  | call nnn =>
    obtain ⟨-, rfl⟩ := exec_call_next h
    rw [finishStep_pc_of_setsPc rfl, addrOperand_toNat]
    omega
  | ret =>
    obtain ⟨hle, hentry⟩ := hs
    obtain ⟨hne, htop, rfl⟩ := exec_ret_next h
    have hpos : s.sp.toNat ≠ 0 := fun hz => hne (BitVec.eq_of_toNat_eq hz)
    have htop_le : s.stack[s.sp.toNat - 1].toNat ≤ 0xFFE := hentry ⟨s.sp.toNat - 1, htop⟩ (Nat.sub_one_lt hpos)
    exact add_two_le htop_le
  | seImm | sneImm | seReg | sneReg | skp | sknp => cases h; exact finishStep_skipIf_pc_le rfl _ hpc
  | cls | ldImm | addImm | ldReg | orReg | andReg | xorReg | addReg | subReg | shr | subnReg | shl | ldI | rnd | drw
  | ldVxDT | ldVxK | ldDTVx | ldSTVx | addI | ldF | ldB | storeRegs | loadRegs =>
    have hkept : t.pc = s.pc := exec_sameBut_writtenBy h .pc (by simp [writtenBy])
    rw [← hkept] at hpc
    exact add_two_le hpc

/-- Only the two stores touch the list of cells, and they keep its canonical form (log entry 24). -/
theorem exec_keeps_wf {i : Instr} {s t : State} (h : exec i s = .next t) (hwf : Memory.wf s.mem = true) :
    Memory.wf t.mem = true := by
  cases i with
  | ldB | storeRegs => exact storeAtIndex_keeps_wf (by simp) h hwf
  | call nnn => obtain ⟨-, rfl⟩ := exec_call_next h; exact hwf
  | ret => obtain ⟨-, -, rfl⟩ := exec_ret_next h; exact hwf
  | loadRegs x =>
    obtain ⟨hmem, -⟩ := exec_loadRegs_next h
    rwa [hmem]
  | drw x y n =>
    obtain ⟨u, -, hu, -, -, hmem, -⟩ := execDrw_ok (x := x) (y := y) (exec_drw_fits h)
    cases hu.symm.trans h
    rwa [hmem]
  | seImm | sneImm | seReg | sneReg | skp | sknp => cases h; rwa [skipIf_mem]
  | cls | jp | jpV0 | ldImm | addImm | ldReg | orReg | andReg | xorReg | addReg | subReg | shr | subnReg | shl | ldI
  | rnd | ldVxDT | ldVxK | ldDTVx | ldSTVx | addI | ldF => cases h; exact hwf

/-! ### The invariant over one step -/

theorem Inv.stackOk {s : State} (h : Inv s) : StackOk s := ⟨h.sp_le, h.stack_le⟩

/-- The wait step writes a register and returns to Running, where R40 (d) asks for nothing. -/
theorem Inv.waitStep {s : State} (h : Inv s) (r : Reg) : Inv (waitStep r s) := by
  cases hk : s.key with
  | none => rwa [waitStep_no_key hk]
  | some k =>
    rw [waitStep_key hk]
    exact ⟨h.sp_le, h.stack_le, h.pc_le, fun _ hw => (by cases hw), h.no_fault, h.mem_wf⟩

/-- The invariant speaks of no input. -/
theorem Inv.presentNext {s : State} (h : Inv s) : Inv (presentNext s) :=
  ⟨h.sp_le, h.stack_le, h.pc_le, h.wait_clean, h.no_fault, h.mem_wf⟩

/-! ### Reset and boot -/

theorem inv_reset : Inv State.reset :=
  ⟨by decide, fun _ hk => absurd hk (Nat.not_lt_zero _), by decide, fun _ hw => (by cases hw), rfl, reset_mem_wf⟩

theorem fontLow_append_fontHigh_length : (fontLow ++ fontHigh).length = 80 := rfl

/-- The font ends at 0x04F (spec/10_state.md R38). -/
theorem resetByte_above_font {a : Nat} (h : 0x50 ≤ a) : resetByte a = 0 :=
  List.getD_eq_default _ _ (fontLow_append_fontHigh_length ▸ h)

/-- Everything the boot sequence does with a ROM that fits (spec/46_host_operations.md R242). -/
theorem boot_ok {rom : List Byte} (h : rom.length ≤ 3584) :
    ∃ m, boot rom = setMem State.reset m ∧
      (∀ k, (hk : k < rom.length) → Memory.get m (0x200 + k) = rom[k]) ∧
      (∀ a, (a < 0x200 ∨ 0x200 + rom.length ≤ a) → Memory.get m a = Memory.get State.reset.mem a) ∧
      Memory.wf m = true := by
  obtain ⟨m, hm, hin, hout, hwf⟩ := memWriteBytes_ok rom State.reset.mem 0x200 (by omega)
  have hrom : WellFormed.rom rom = true := decide_eq_true h
  exact ⟨m, by rw [boot, if_pos hrom, hm], hin, hout, hwf reset_mem_wf⟩

/-- A ROM that does not fit is refused as a whole (log entry 14). -/
theorem boot_too_long {rom : List Byte} (h : 3584 < rom.length) :
    boot rom = latchFault (.boundsError 0x1000) State.reset := by
  have hrom : ¬ WellFormed.rom rom = true := by simpa [WellFormed.rom] using h
  rw [boot, if_neg hrom]
  rfl

theorem latchFault_sameBut (f : Fault) (s : State) : SameBut [.fault] s (latchFault f s) := by
  intro p hp; cases p <;> simp_all [keeps]

theorem resetRequest_sameBut (s : State) : SameBut [.inputs] State.reset (resetRequest s) := by
  intro p hp; cases p <;> simp_all [keeps, resetRequest, getV]

theorem runs_boot {hi lo : Byte} {rest : List Byte} {i : Instr} (hlen : (hi :: lo :: rest).length ≤ 3584)
    (hd : decode (wordOfBytes hi lo) = .ok i) : Runs (boot (hi :: lo :: rest)) i := by
  obtain ⟨m, hboot, hin, -, -⟩ := boot_ok hlen
  have hhi : Memory.get m 0x200 = hi := hin 0 (by simp)
  have hlo : Memory.get m 0x201 = lo := hin 1 (by simp)
  have hword : wordAtPc (setMem State.reset m) = wordOfBytes hi lo := congrArg₂ wordOfBytes hhi hlo
  rw [hboot]
  exact ⟨rfl, rfl, by rw [setMem_pc]; decide, hword ▸ hd⟩

/-! ### The statements -/

/-- Settles O26: a Running step starts with `pc` at most 0xFFE, so that a call pushes such an address and every other
advance of `pc` is small; only Fx0A waits, and it leaves dirty clear. -/
theorem stepKeepsInvariant : Obligations.StepKeepsInvariant := by
  unfold Obligations.StepKeepsInvariant
  intro s t hinv h
  obtain ⟨-, hclean⟩ := dirtyExactlyAfterClearOrDraw.1 s t hinv h
  obtain ⟨hf, ⟨r, -, rfl⟩ | ⟨-, i, u, hpc, -, hu, rfl⟩⟩ := step_next h
  · exact (hinv.waitStep r).presentNext
  · obtain ⟨hsp, hentry⟩ := exec_keeps_stackOk hu hpc hinv.stackOk
    have hfault : u.fault = s.fault := exec_sameBut_writtenBy hu .fault (fault_not_mem_writtenBy i)
    refine ⟨?_, ?_, finishStep_pc_le hu hpc hinv.stackOk, hclean, ?_, ?_⟩
    · rwa [presentNext_sp, finishStep_sp]
    · simpa using hentry
    · rw [presentNext_fault, finishStep_fault, hfault, hf]
    · rw [presentNext_mem, finishStep_mem]
      exact exec_keeps_wf hu hinv.mem_wf

/-- Settles O27: each clause is evaluated at the reset state. -/
theorem resetMeetsInvariant : Obligations.ResetMeetsInvariant := by
  unfold Obligations.ResetMeetsInvariant
  exact inv_reset

/-- Settles O28: the ROM load changes memory only, by writes that keep its canonical form. -/
theorem bootMeetsInvariant : Obligations.BootMeetsInvariant := by
  unfold Obligations.BootMeetsInvariant
  intro rom hlen
  obtain ⟨m, hboot, -, -, hwf⟩ := boot_ok hlen
  rw [hboot]
  exact ⟨inv_reset.sp_le, inv_reset.stack_le, inv_reset.pc_le, inv_reset.wait_clean, inv_reset.no_fault, hwf⟩

/-- Settles O29: each piece is evaluated at the reset state; memory lists nothing there, so a byte from 0x050 on is a
default. -/
theorem resetState : Obligations.ResetState := by
  unfold Obligations.ResetState
  refine ⟨fun r => ?_, rfl, rfl, rfl, fun k => ?_, rfl, rfl, rfl, rfl, rfl, pixel_of_fb_eq_blankFb rfl,
    fun a ha => resetByte_above_font ha, by decide, by decide⟩
  · exact Vector.getElem_replicate _
  · exact Vector.getElem_replicate _

/-- Settles O30: piece by piece. -/
theorem resetRequestResetsTheCore : Obligations.ResetRequestResetsTheCore := by
  unfold Obligations.ResetRequestResetsTheCore
  exact fun s => ⟨resetRequest_sameBut s, rfl, rfl, rfl⟩

/-- Settles O31: a ROM of at most 3584 bytes ends inside the address space, and a longer one is never written. -/
theorem bootLoadsTheRom : Obligations.BootLoadsTheRom := by
  unfold Obligations.BootLoadsTheRom
  refine fun rom => ⟨fun hlen => ?_, fun hlen => ?_⟩
  · obtain ⟨m, hboot, hin, hout, -⟩ := boot_ok hlen
    rw [hboot]
    exact ⟨hin, hout, setMem_sameBut _ m⟩
  · rw [boot_too_long hlen]
    exact ⟨rfl, latchFault_sameBut _ _⟩

/-- Settles O32: `pc` is 0x200, where the ROM begins; without a ROM the word there is 0x0000, which is illegal. -/
theorem bootRunsTheFirstRomWord : Obligations.BootRunsTheFirstRomWord := by
  unfold Obligations.BootRunsTheFirstRomWord
  exact ⟨fun hi lo rest i hlen hd => runs_boot hlen hd, rfl⟩

end Sys2Proof.Machine
end

section
/-! PROOFS for spec/44_display.md R200, R203, R206. The sprite as the pixel port shows it, drawn once, drawn twice, and
counted on a clear display. -/

namespace Sys2Proof.Machine

/-! ### The sprite pixel by pixel -/

/-- Whether Dxyn run on `s` covers the pixel at `(c, r)` with a set bit of its sprite. -/
def drawCovers (x y : Reg) (n : Rows) (s : State) (c r : Nat) : Bool :=
  spriteCovers (fun k => Memory.get s.mem (indexAddr s + k)) n.toNat (getV s x).toNat (getV s y).toNat (c % 64) (r % 32)

theorem drawCovers_congr {x y : Reg} {n : Rows} {s u : State} (hmem : u.mem = s.mem) (hI : u.I = s.I)
    (hx : getV u x = getV s x) (hy : getV u y = getV s y) : drawCovers x y n u = drawCovers x y n s := by
  funext c r
  simp only [drawCovers, indexAddr, hmem, hI, hx, hy]

/-- The pixel port addresses every pixel. -/
theorem exists_pixel_eq (s : State) (c r : Nat) : ∃ (cx : BitVec 6) (ry : BitVec 5), pixel s cx ry = pixelAt s.fb c r :=
  ⟨BitVec.ofNat 6 c, BitVec.ofNat 5 r, pixelAt_mod s.fb c r⟩

/-- Everything Dxyn does when its rows fit, or when it has none: the pixels it toggles, and a flag that says whether it
unset one (spec/44_display.md R203). -/
theorem exec_drw_ok {x y : Reg} {n : Rows} {s : State} (h : n.toNat = 0 ∨ s.I.toNat + n.toNat ≤ 0x1000) :
    ∃ t coll, exec (.drw x y n) s = .next t ∧ SameBut [.V, .fb, .dirty] s t ∧ t.dirty = true ∧ t.mem = s.mem ∧
      SameRegsBut [VF] s t ∧ getV t VF = flagByte coll ∧
      (∀ c r, pixelAt t.fb c r = (pixelAt s.fb c r ^^ drawCovers x y n s c r)) ∧
      (coll = true ↔ ∃ c r, pixel s c r = true ∧ pixel t c r = false) := by
  obtain ⟨t, coll, ht, hframe, hdirty, hmem, hregs, hVF, hpix, hcoll⟩ := execDrw_ok (x := x) (y := y) h
  refine ⟨t, coll, ht, hframe, hdirty, hmem, hregs, hVF, hpix, hcoll.trans ⟨?_, ?_⟩⟩
  · rintro ⟨c, r, hc, hr, hset, hcov⟩
    refine ⟨BitVec.ofNat 6 c, BitVec.ofNat 5 r, (pixelAt_mod s.fb c r).trans hset, (pixelAt_mod t.fb c r).trans ?_⟩
    rw [hpix, hset, Nat.mod_eq_of_lt hc, Nat.mod_eq_of_lt hr, hcov, Bool.xor_self]
  · rintro ⟨c, r, hset, hunset⟩
    rw [pixel] at hset hunset
    rw [hpix, hset, Nat.mod_eq_of_lt c.isLt, Nat.mod_eq_of_lt r.isLt] at hunset
    exact ⟨c.toNat, r.toNat, c.isLt, r.isLt, hset, by simpa using hunset⟩

theorem exec_drw_error {x y : Reg} {n : Rows} {s : State} (h0 : 1 ≤ n.toNat) (h : 0xFFF < s.I.toNat + n.toNat - 1) :
    exec (.drw x y n) s = .fault (.boundsError (firstOffence s.I.toNat)) :=
  exec_of_faultOf_some (if_pos ⟨h0, h⟩)

/-! ### Counting the pixels of a sprite -/

/-- The bits of a byte counted from the most significant one. -/
theorem countP_spriteBits (byte : Byte) : (List.range 8).countP (fun c => byte.getLsbD (7 - c)) = bitCount byte := by
  have hrev : (List.range 8).map (fun c => 7 - c) = (List.range 8).reverse := by decide
  rw [bitCount, ← List.countP_reverse, ← hrev, List.countP_map]
  rfl

/-- The first `m` bits of a row drawn onto clear pixels set as many pixels as they have 1 bits. -/
theorem litPixels_drawBits (fb : Framebuffer) (x y : Nat) (byte : Byte) {m : Nat} (hm : m ≤ 8)
    (hclear : ∀ c, pixelAt fb c y = false) :
    litPixels ((List.range m).foldl (drawBit x y byte) (fb, false)).1 =
      litPixels fb + (List.range m).countP fun c => byte.getLsbD (7 - c) := by
  induction m with
  | zero => rfl
  | succ m ih =>
    have hnext : pixelAt ((List.range m).foldl (drawBit x y byte) (fb, false)).1 (x + m) y = false := by
      rw [(drawBits_spec fb x y byte m (by omega)).1, hclear, rowCovers_here (by omega)]
      simp
    rw [List.range_succ, List.foldl_append, List.countP_append, ← Nat.add_assoc, ← ih (by omega)]
    simp only [List.foldl_cons, List.foldl_nil, drawBit, litPixels_setPixel _ _ _ _ hnext, hnext, spriteBit]
    cases hbit : byte.getLsbD (7 - m) <;> simp [hbit]

theorem litPixels_drawByte (fb : Framebuffer) (x y : Nat) (byte : Byte) (hclear : ∀ c, pixelAt fb c y = false) :
    litPixels (drawByte fb x y byte).1 = litPixels fb + bitCount byte := by
  rw [drawByte, litPixels_drawBits fb x y byte le_rfl hclear, countP_spriteBits]

theorem memRead_eq_ok {m : List Host.Cell} {a : Nat} {b : Byte} (h : memRead m a = .ok b) : b = Memory.get m a := by
  unfold memRead at h
  split at h <;> cases h
  rfl

/-- A row loop that completes drew its first row and completed on the rows below it. -/
theorem drawRows_succ_eq_ok {m : List Host.Cell} {addr x y n : Nat} {fb : Framebuffer} {p : Framebuffer × Bool}
    (h : drawRows m addr x y (n + 1) fb = .ok p) :
    ∃ q, drawRows m (addr + 1) x (y + 1) n (drawByte fb x y (Memory.get m addr)).1 = .ok q ∧ p.1 = q.1 := by
  unfold drawRows at h
  split at h
  next => cases h
  next b hb =>
    cases memRead_eq_ok hb
    dsimp only at h
    split at h
    next => cases h
    next q hq => cases h; exact ⟨q, hq, rfl⟩

/-- Rows drawn onto clear rows set as many pixels as their bytes have 1 bits: at most 32 rows do not meet. -/
theorem litPixels_drawRows {m : List Host.Cell} {x n : Nat} : ∀ {addr y : Nat} {fb : Framebuffer}
    {p : Framebuffer × Bool}, n ≤ 32 → (∀ c r, r < n → pixelAt fb c (y + r) = false) →
    drawRows m addr x y n fb = .ok p →
    litPixels p.1 = litPixels fb + ((List.range n).map fun k => bitCount (Memory.get m (addr + k))).sum := by
  induction n with
  | zero => intro addr y fb p _ _ h; cases h; rfl
  | succ n ih =>
    intro addr y fb p hn hclear h
    obtain ⟨q, hq, hpq⟩ := drawRows_succ_eq_ok h
    have hbelow : ∀ c r, r < n → pixelAt (drawByte fb x y (Memory.get m addr)).1 c (y + 1 + r) = false := by
      intro c r hr
      have hother : y % 32 ≠ (y + 1 + r) % 32 := by omega
      have hrow : pixelAt fb c (y + 1 + r) = false := by
        rw [Nat.add_assoc, Nat.add_comm 1 r]
        exact hclear c (r + 1) (by omega)
      simp [pixelAt_drawByte, hother, hrow]
    have hfirst := litPixels_drawByte fb x y (Memory.get m addr) fun c => hclear c 0 (Nat.succ_pos n)
    rw [hpq, ih (by omega) hbelow hq, hfirst, List.range_succ_eq_map, List.map_cons, List.map_map, List.sum_cons]
    simp only [Function.comp_def, Nat.succ_eq_add_one, Nat.add_assoc, Nat.add_comm 1, Nat.add_zero]

theorem exec_drw_eq_next {x y : Reg} {n : Rows} {s t : State} (h : exec (.drw x y n) s = .next t) :
    ∃ p, drawRows s.mem (indexAddr s) (getV s x).toNat (getV s y).toNat n.toNat s.fb = .ok p ∧ t.fb = p.1 := by
  simp only [exec, execDrw] at h
  split at h
  next => cases h
  next p hp => cases h; exact ⟨p, hp, rfl⟩

theorem litPixels_blankFb : litPixels blankFb = 0 := by decide

/-- A display that the pixel port shows clear everywhere is the blank one. -/
theorem fb_eq_blankFb {s : State} (h : ∀ c r, pixel s c r = false) : s.fb = blankFb := by
  refine framebuffer_ext fun c r => ?_
  obtain ⟨cx, ry, he⟩ := exists_pixel_eq s c r
  rw [← he, h, pixelAt_blankFb]

/-! ### The statements -/

/-- Settles O54: the row loop's pixels and its collision, read through the pixel port. -/
theorem spriteDrawn : Obligations.SpriteDrawn := by
  unfold Obligations.SpriteDrawn
  refine fun x y n s => ⟨fun hfit => ?_, exec_drw_error⟩
  obtain ⟨t, coll, ht, hframe, hdirty, -, hregs, hVF, hpix, hcoll⟩ := exec_drw_ok (x := x) (y := y) (s := s) (n := n)
    (by omega)
  refine ⟨t, ht, fun c r => ?_, fun hex => ?_, fun hno => ?_, hdirty, hregs, hframe⟩
  · rw [pixel, hpix, drawCovers, Nat.mod_eq_of_lt c.isLt, Nat.mod_eq_of_lt r.isLt, pixel]
  · rw [hVF, hcoll.2 hex, flagByte, if_pos rfl]
  · rw [hVF, Bool.eq_false_iff.2 (mt hcoll.1 hno)]
    rfl

/-- Settles O55: the second draw covers the same pixels, and toggling twice changes nothing; a pixel the first set is
one the second unsets. -/
theorem drawTwiceRestoresTheDisplay : Obligations.DrawTwiceRestoresTheDisplay := by
  unfold Obligations.DrawTwiceRestoresTheDisplay
  intro x y n s t u ht hfb hmem hI hx hy
  have hfit := exec_drw_fits ht
  obtain ⟨t', -, ht', hframe, -, hmem', -, -, hpix, -⟩ := exec_drw_ok (x := x) (y := y) hfit
  cases ht'.symm.trans ht
  have hIs : u.I = s.I := hI.trans (hframe .I (by decide))
  have hcovers := drawCovers_congr (n := n) (hmem.trans hmem') hIs hx hy
  obtain ⟨w, coll, hw, -, -, -, -, hVF, hpixw, hcoll⟩ := exec_drw_ok (x := x) (y := y) (s := u) (n := n) (by rwa [hIs])
  have hrestored : w.fb = s.fb := framebuffer_ext fun c r => by
    rw [hpixw, hfb, hpix, hcovers, Bool.xor_assoc, Bool.xor_self, Bool.xor_false]
  refine ⟨w, hw, hrestored, ?_⟩
  rintro ⟨c, r, hclear, hset⟩
  have hunset : coll = true := hcoll.2 ⟨c, r, by rwa [pixel, hfb], by rwa [pixel, hrestored]⟩
  rw [hVF, hunset, flagByte, if_pos rfl]

/-- Settles O56: fewer than 32 rows of 8 columns do not meet when they wrap, so each 1 bit sets a pixel of its own. -/
theorem drawOnClearDisplayCountsSpriteBits : Obligations.DrawOnClearDisplayCountsSpriteBits := by
  unfold Obligations.DrawOnClearDisplayCountsSpriteBits
  intro x y n s t hclear ht
  obtain ⟨p, hp, hfb⟩ := exec_drw_eq_next ht
  rw [fb_eq_blankFb hclear] at hp
  have hrows : n.toNat ≤ 32 := by omega
  rw [hfb, litPixels_drawRows hrows (fun _ _ _ => pixelAt_blankFb _ _) hp, litPixels_blankFb, Nat.zero_add]

end Sys2Proof.Machine
end
